-- ==== Sys2Proof/Word.lean ====
section
/-! DEFINITION. The machine's word types (00_scope.md R8, R10): an 8-bit byte, a 12-bit address, a 16-bit
opcode, the two short opcode fields, and the numbers of the sixteen general registers and keys. -/

namespace Sys2Proof

/-- A memory byte, a general register's value, a counter, or the immediate NN (R8, R20, R32). -/
abbrev Byte := BitVec 8

/-- An address into the 4096-byte memory, and the program counter and index register (R8, R23, R27). -/
abbrev Addr := BitVec 12

/-- One instruction word (R80). -/
abbrev Opcode := BitVec 16

/-- A 4-bit field of an opcode (R10). -/
abbrev Nibble := BitVec 4

/-- A general register's number 0..15 (R20). -/
abbrev RegIdx := Fin 16

/-- A key's number 0x0..0xF (R34). -/
abbrev KeyIdx := Fin 16

/-- VF, the register that doubles as the flag (R21). -/
abbrev VF : RegIdx := 15

end Sys2Proof
end

