-- ==== Sys2Proof/Syntax.lean ====
section
/-! DEFINITION. The 35 instructions (30_encoding.md R83), one constructor per row of spec/opcode_table.json, in the
table's order. Operand fields as R80 and R81 name them: x, y register numbers; n a 4-bit count; nn a byte; nnn an
address. -/

namespace Sys2Proof

/-- An instruction. Each constructor's comment gives its pattern and the rule of its meaning. -/
inductive Instr where
  | cls                                        -- 00E0, R231
  | ret                                        -- 00EE, R131
  | sys (nnn : Addr)                           -- 0NNN, R132
  | jp (nnn : Addr)                            -- 1NNN, R133
  | call (nnn : Addr)                          -- 2NNN, R134
  | seImm (x : RegIdx) (nn : Byte)             -- 3XNN, R135
  | sneImm (x : RegIdx) (nn : Byte)            -- 4XNN, R136
  | seReg (x y : RegIdx)                       -- 5XY0, R137
  | sneReg (x y : RegIdx)                      -- 9XY0, R138
  | ldImm (x : RegIdx) (nn : Byte)             -- 6XNN, R160
  | addImm (x : RegIdx) (nn : Byte)            -- 7XNN, R161
  | ldReg (x y : RegIdx)                       -- 8XY0, R162
  | orReg (x y : RegIdx)                       -- 8XY1, R163
  | andReg (x y : RegIdx)                      -- 8XY2, R164
  | xorReg (x y : RegIdx)                      -- 8XY3, R165
  | addReg (x y : RegIdx)                      -- 8XY4, R166
  | subReg (x y : RegIdx)                      -- 8XY5, R167
  | shr (x y : RegIdx)                         -- 8XY6, R168
  | subn (x y : RegIdx)                        -- 8XY7, R169
  | shl (x y : RegIdx)                         -- 8XYE, R170
  | ldI (nnn : Addr)                           -- ANNN, R201
  | jpV0 (nnn : Addr)                          -- BNNN, R139
  | rnd (x : RegIdx) (nn : Byte)               -- CXNN, R171
  | drw (x y : RegIdx) (n : Nibble)            -- DXYN, R232
  | skp (x : RegIdx)                           -- EX9E, R250
  | sknp (x : RegIdx)                          -- EXA1, R251
  | ldVxDt (x : RegIdx)                        -- FX07, R253
  | ldVxK (x : RegIdx)                         -- FX0A, R254
  | ldDtVx (x : RegIdx)                        -- FX15, R255
  | ldStVx (x : RegIdx)                        -- FX18, R256
  | addI (x : RegIdx)                          -- FX1E, R202
  | ldF (x : RegIdx)                           -- FX29, R203
  | ldB (x : RegIdx)                           -- FX33, R204
  | ldMemVx (x : RegIdx)                       -- FX55, R205
  | ldVxMem (x : RegIdx)                       -- FX65, R206
  deriving DecidableEq, Repr

end Sys2Proof
end

