-- ==== Sys2Proof/WellFormed.lean ====
section
/-! DEFINITION. Which instructions an opcode can carry (30_encoding.md R81, R84). Every operand's range is its type;
the one further condition is the precedence of 00E0 and 00EE over 0NNN. -/

namespace Sys2Proof

/-- SYS has no encoding at the addresses 0x0E0 and 0x0EE, whose words are CLS and RET (R84). Every other
instruction is well formed at every operand. -/
def Instr.wellFormed : Instr → Bool
  | .sys nnn => nnn != 0x0E0#12 && nnn != 0x0EE#12
  | .cls | .ret | .jp _ | .call _ | .seImm _ _ | .sneImm _ _ | .seReg _ _ | .sneReg _ _ => true
  | .ldImm _ _ | .addImm _ _ | .ldReg _ _ | .orReg _ _ | .andReg _ _ | .xorReg _ _ => true
  | .addReg _ _ | .subReg _ _ | .shr _ _ | .subn _ _ | .shl _ _ | .ldI _ | .jpV0 _ => true
  | .rnd _ _ | .drw _ _ _ | .skp _ | .sknp _ | .ldVxDt _ | .ldVxK _ | .ldDtVx _ => true
  | .ldStVx _ | .addI _ | .ldF _ | .ldB _ | .ldMemVx _ | .ldVxMem _ => true

end Sys2Proof
end

