-- ==== Sys2Proof/Decode.lean ====
section
/-! DEFINITION. Decoding, total on every 16-bit word (30_encoding.md R80 to R86), and the encoder. A word of the
unmatched space is rejected under the name of its space; it is no error of the machine, whose step runs it as a no-op
(R86). -/

namespace Sys2Proof

/-- The five spaces of words that match no pattern (R86). -/
inductive Unmatched where
  | word5xyn  -- 5XYN with N ≠ 0
  | word9xyn  -- 9XYN with N ≠ 0
  | word8xyn  -- 8XYN with N in 8, 9, A, B, C, D, F
  | wordExnn  -- EXNN with NN not 9E or A1
  | wordFxnn  -- FXNN with NN none of 07, 0A, 15, 18, 1E, 29, 33, 55, 65
  deriving DecidableEq, Repr

/-! ## Fields (R80, R81) -/

/-- n0 = op[15:12], the major opcode. -/
def fieldN0 (op : Opcode) : Nibble := op.extractLsb' 12 4
/-- X = op[11:8], a register number. -/
def fieldX (op : Opcode) : RegIdx := (op.extractLsb' 8 4).toFin
/-- Y = op[7:4], a register number. -/
def fieldY (op : Opcode) : RegIdx := (op.extractLsb' 4 4).toFin
/-- N = op[3:0]. -/
def fieldN (op : Opcode) : Nibble := op.extractLsb' 0 4
/-- NN = op[7:0]. -/
def fieldNN (op : Opcode) : Byte := op.extractLsb' 0 8
/-- NNN = op[11:0]. -/
def fieldNNN (op : Opcode) : Addr := op.extractLsb' 0 12

/-! ## The decoder (R85) -/

/-- The 8XYN operations (R83, rows 12 to 20). -/
def decode8 (x y : RegIdx) (n : Nibble) : Except Unmatched Instr :=
  if n = 0x0#4 then .ok (.ldReg x y)
  else if n = 0x1#4 then .ok (.orReg x y)
  else if n = 0x2#4 then .ok (.andReg x y)
  else if n = 0x3#4 then .ok (.xorReg x y)
  else if n = 0x4#4 then .ok (.addReg x y)
  else if n = 0x5#4 then .ok (.subReg x y)
  else if n = 0x6#4 then .ok (.shr x y)
  else if n = 0x7#4 then .ok (.subn x y)
  else if n = 0xE#4 then .ok (.shl x y)
  else .error .word8xyn

/-- The EXNN operations (R83, rows 25 and 26). -/
def decodeE (x : RegIdx) (nn : Byte) : Except Unmatched Instr :=
  if nn = 0x9E#8 then .ok (.skp x)
  else if nn = 0xA1#8 then .ok (.sknp x)
  else .error .wordExnn

/-- The FXNN operations (R83, rows 27 to 35). -/
def decodeF (x : RegIdx) (nn : Byte) : Except Unmatched Instr :=
  if nn = 0x07#8 then .ok (.ldVxDt x)
  else if nn = 0x0A#8 then .ok (.ldVxK x)
  else if nn = 0x15#8 then .ok (.ldDtVx x)
  else if nn = 0x18#8 then .ok (.ldStVx x)
  else if nn = 0x1E#8 then .ok (.addI x)
  else if nn = 0x29#8 then .ok (.ldF x)
  else if nn = 0x33#8 then .ok (.ldB x)
  else if nn = 0x55#8 then .ok (.ldMemVx x)
  else if nn = 0x65#8 then .ok (.ldVxMem x)
  else .error .wordFxnn

/-- R85, the first matching line wins (R84, D8: 00E0 and 00EE before 0NNN; a fixed nibble matches literally). -/
def decode (op : Opcode) : Except Unmatched Instr :=
  let n0 := fieldN0 op
  let x := fieldX op
  let y := fieldY op
  let n := fieldN op
  let nn := fieldNN op
  let nnn := fieldNNN op
  if op = 0x00E0#16 then .ok .cls
  else if op = 0x00EE#16 then .ok .ret
  else if n0 = 0x0#4 then .ok (.sys nnn)
  else if n0 = 0x1#4 then .ok (.jp nnn)
  else if n0 = 0x2#4 then .ok (.call nnn)
  else if n0 = 0x3#4 then .ok (.seImm x nn)
  else if n0 = 0x4#4 then .ok (.sneImm x nn)
  else if n0 = 0x5#4 then (if n = 0x0#4 then .ok (.seReg x y) else .error .word5xyn)
  else if n0 = 0x6#4 then .ok (.ldImm x nn)
  else if n0 = 0x7#4 then .ok (.addImm x nn)
  else if n0 = 0x8#4 then decode8 x y n
  else if n0 = 0x9#4 then (if n = 0x0#4 then .ok (.sneReg x y) else .error .word9xyn)
  else if n0 = 0xA#4 then .ok (.ldI nnn)
  else if n0 = 0xB#4 then .ok (.jpV0 nnn)
  else if n0 = 0xC#4 then .ok (.rnd x nn)
  else if n0 = 0xD#4 then .ok (.drw x y n)
  else if n0 = 0xE#4 then decodeE x nn
  else decodeF x nn

/-! ## The encoder (R80, R83) -/

/-- A register number as the 4-bit field that names it. -/
def regField (r : RegIdx) : Nibble := BitVec.ofFin r

/-- n0 ++ NNN. -/
def mkNNN (n0 : Nibble) (nnn : Addr) : Opcode := n0 ++ nnn
/-- n0 ++ X ++ NN. -/
def mkXNN (n0 : Nibble) (x : RegIdx) (nn : Byte) : Opcode := n0 ++ (regField x ++ nn)
/-- n0 ++ X ++ Y ++ N. -/
def mkXYN (n0 : Nibble) (x y : RegIdx) (n : Nibble) : Opcode := n0 ++ (regField x ++ (regField y ++ n))

/-- The word of an instruction, from the patterns of R83. -/
def encode : Instr → Opcode
  | .cls => 0x00E0#16
  | .ret => 0x00EE#16
  | .sys nnn => mkNNN 0x0#4 nnn
  | .jp nnn => mkNNN 0x1#4 nnn
  | .call nnn => mkNNN 0x2#4 nnn
  | .seImm x nn => mkXNN 0x3#4 x nn
  | .sneImm x nn => mkXNN 0x4#4 x nn
  | .seReg x y => mkXYN 0x5#4 x y 0x0#4
  | .sneReg x y => mkXYN 0x9#4 x y 0x0#4
  | .ldImm x nn => mkXNN 0x6#4 x nn
  | .addImm x nn => mkXNN 0x7#4 x nn
  | .ldReg x y => mkXYN 0x8#4 x y 0x0#4
  | .orReg x y => mkXYN 0x8#4 x y 0x1#4
  | .andReg x y => mkXYN 0x8#4 x y 0x2#4
  | .xorReg x y => mkXYN 0x8#4 x y 0x3#4
  | .addReg x y => mkXYN 0x8#4 x y 0x4#4
  | .subReg x y => mkXYN 0x8#4 x y 0x5#4
  | .shr x y => mkXYN 0x8#4 x y 0x6#4
  | .subn x y => mkXYN 0x8#4 x y 0x7#4
  | .shl x y => mkXYN 0x8#4 x y 0xE#4
  | .ldI nnn => mkNNN 0xA#4 nnn
  | .jpV0 nnn => mkNNN 0xB#4 nnn
  | .rnd x nn => mkXNN 0xC#4 x nn
  | .drw x y n => mkXYN 0xD#4 x y n
  | .skp x => mkXNN 0xE#4 x 0x9E#8
  | .sknp x => mkXNN 0xE#4 x 0xA1#8
  | .ldVxDt x => mkXNN 0xF#4 x 0x07#8
  | .ldVxK x => mkXNN 0xF#4 x 0x0A#8
  | .ldDtVx x => mkXNN 0xF#4 x 0x15#8
  | .ldStVx x => mkXNN 0xF#4 x 0x18#8
  | .addI x => mkXNN 0xF#4 x 0x1E#8
  | .ldF x => mkXNN 0xF#4 x 0x29#8
  | .ldB x => mkXNN 0xF#4 x 0x33#8
  | .ldMemVx x => mkXNN 0xF#4 x 0x55#8
  | .ldVxMem x => mkXNN 0xF#4 x 0x65#8

/-! ## Bytes (R55, R80: big-endian) -/

/-- The opcode of two consecutive bytes, the first in bits 15:8. -/
def opcodeOfBytes (hi lo : Byte) : Opcode := hi ++ lo
/-- The byte of an opcode that is stored first. -/
def opcodeHi (op : Opcode) : Byte := op.extractLsb' 8 8
/-- The byte of an opcode that is stored second. -/
def opcodeLo (op : Opcode) : Byte := op.extractLsb' 0 8

/-- Decoding two consecutive bytes of memory. -/
def decodeBytes (hi lo : Byte) : Except Unmatched Instr := decode (opcodeOfBytes hi lo)

/-- The opcode that the table numbers as w, of which the table gives nbits bits (the bits above are 0). -/
def tableOpcode (nbits w : Nat) : Opcode := BitVec.ofNat 16 (w % 2 ^ nbits)

/-- The instruction the decoder reads from the table word w, laid out in memory as the hardware stores it. -/
def decodeTableWord (nbits w : Nat) : Option Instr :=
  let op := tableOpcode nbits w
  match decodeBytes (opcodeHi op) (opcodeLo op) with
  | .ok i => some i
  | .error _ => none

end Sys2Proof
end

