-- ==== Sys2Proof/Config.lean ====
section
/-! DEFINITION. What the spec leaves open (00_scope.md R9): the two parameters a step reads, with every value the
spec gives them, and the free values. FONT and MEM_INIT are arguments of construction
(Machine/Memory.lean, Machine/Session.lean). -/

namespace Sys2Proof

/-- KEY_OOR_POLICY (45_keypad_timers.md R252, D11): what a key test yields for a register value 16..255. -/
inductive KeyOorPolicy where
  | draw        -- an unconstrained boolean, fresh per execution (the default)
  | mask        -- the key of the low four bits
  | notPressed  -- false
  | fault       -- the model fault KeyIndexOutOfRange
  deriving DecidableEq, Repr

/-- The open parameters a step reads (R9, R282). `stackCapacity = none` is the default, unbounded. -/
structure Params where
  stackCapacity : Option Nat
  keyOorPolicy : KeyOorPolicy
  deriving DecidableEq, Repr

/-- The spec's defaults (R9, D9, D11): an unbounded stack, and a drawn key test. -/
def Params.default : Params := ⟨none, .draw⟩

/-- Free value (D12, log 4): the random byte of the n-th draw. The spec constrains it in no way, so it has no body. -/
opaque Config.freeByte : Nat → Byte

/-- Free value (D11, log 5): the key test's result at the n-th draw, for an index past 15 under policy `draw`. -/
opaque Config.freeBit : Nat → Bool

end Sys2Proof
end

