-- ==== Sys2Proof/Machine/Bus.lean ====
section
/-! DEFINITION. The abstract peripheral store (20_memory.md R58, R61): the nine operations of the bus contract over any
type of stores, what makes an implementation of them lawful (R54, R57, R58, R59), and the CPU engine's own state, which
with a store is all the engine works on. Operations and answers are functions; the machine's State holds none. -/

namespace Sys2Proof.Machine

/-- The contract's operations over stores of type σ (R58), the only way the CPU reaches a store. A read answers a value
and no new store (R57). Addresses and key numbers are in range by their type; pixel coordinates are any numbers (R59). -/
structure Bus (σ : Type) where
  memRead : σ → Addr → Byte
  memWrite : σ → Addr → Byte → σ
  keyRead : σ → KeyIdx → Bool
  screenClear : σ → σ
  pixelRead : σ → Nat → Nat → Bool
  pixelWrite : σ → Nat → Nat → Bool → σ
  delayRead : σ → Byte
  delayWrite : σ → Byte → σ
  soundWrite : σ → Byte → σ

/-- Everything the contract's four reads answer of a store. -/
@[ext] structure Answers where
  mem : Addr → Byte
  key : KeyIdx → Bool
  pixel : Nat → Nat → Bool
  delay : Byte

/-- What a store answers. -/
def Bus.answers {σ : Type} (B : Bus σ) (st : σ) : Answers where
  mem := B.memRead st
  key := B.keyRead st
  pixel := B.pixelRead st
  delay := B.delayRead st

/-- An implementation of the contract on the stores that meet `ok`: it never leaves them, pixel reads wrap (R59), and
each write makes its stated change to the answers and no other (R54, R57, R58). -/
structure Bus.Lawful {σ : Type} (B : Bus σ) (ok : σ → Prop) : Prop where
  ok_memWrite : ∀ st a w, ok st → ok (B.memWrite st a w)
  ok_screenClear : ∀ st, ok st → ok (B.screenClear st)
  ok_pixelWrite : ∀ st x y b, ok st → ok (B.pixelWrite st x y b)
  ok_delayWrite : ∀ st w, ok st → ok (B.delayWrite st w)
  ok_soundWrite : ∀ st w, ok st → ok (B.soundWrite st w)
  pixelRead_wraps : ∀ st x y, ok st → B.pixelRead st x y = B.pixelRead st (x % 64) (y % 32)
  answers_memWrite : ∀ st a w, ok st → B.answers (B.memWrite st a w) =
    { B.answers st with mem := fun c => if c = a then w else B.memRead st c }
  answers_screenClear : ∀ st, ok st → B.answers (B.screenClear st) =
    { B.answers st with pixel := fun _ _ => false }
  answers_pixelWrite : ∀ st x y b, ok st → B.answers (B.pixelWrite st x y b) =
    { B.answers st with
      pixel := fun cx cy => if cx % 64 = x % 64 ∧ cy % 32 = y % 32 then b else B.pixelRead st cx cy }
  answers_delayWrite : ∀ st w, ok st → B.answers (B.delayWrite st w) = { B.answers st with delay := w }
  answers_soundWrite : ∀ st w, ok st → B.answers (B.soundWrite st w) = B.answers st

/-- The CPU engine's own state (10_state.md section 1), and the model's own `draws` and `params` (log 7). -/
structure Cpu where
  v : Vector Byte 16
  pc : Addr
  i : Addr
  stack : List Addr
  keyAwait : Option RegIdx
  draws : Nat
  params : Params
  deriving DecidableEq, Repr

/-- A CPU engine beside a store of type σ. -/
structure Sys (σ : Type) where
  cpu : Cpu
  store : σ
  deriving DecidableEq, Repr

/-- How the CPU engine reads and writes a whole machine of type M: its own registers, the draws, and the nine operations
of the contract. The engine is written once over these; the model's State and `Sys σ` for every bus have them. -/
structure Ports (M : Type) where
  reg : M → RegIdx → Byte
  setReg : M → RegIdx → Byte → M
  pc : M → Addr
  setPc : M → Addr → M
  index : M → Addr
  setIndex : M → Addr → M
  stack : M → List Addr
  setStack : M → List Addr → M
  keyAwait : M → Option RegIdx
  setKeyAwait : M → Option RegIdx → M
  draws : M → Nat
  afterDraw : M → M
  params : M → Params
  memRead : M → Addr → Byte
  memWrite : M → Addr → Byte → M
  keyRead : M → KeyIdx → Bool
  screenClear : M → M
  pixelRead : M → Nat → Nat → Bool
  pixelWrite : M → Nat → Nat → Bool → M
  delayRead : M → Byte
  delayWrite : M → Byte → M
  soundWrite : M → Byte → M

/-- The engine beside a store of bus B: CPU registers are fields, the store is reached through B alone. -/
def Bus.ports {σ : Type} (B : Bus σ) : Ports (Sys σ) where
  reg s r := s.cpu.v[r]
  setReg s r w := { s with cpu := { s.cpu with v := s.cpu.v.set r w } }
  pc s := s.cpu.pc
  setPc s a := { s with cpu := { s.cpu with pc := a } }
  index s := s.cpu.i
  setIndex s a := { s with cpu := { s.cpu with i := a } }
  stack s := s.cpu.stack
  setStack s l := { s with cpu := { s.cpu with stack := l } }
  keyAwait s := s.cpu.keyAwait
  setKeyAwait s k := { s with cpu := { s.cpu with keyAwait := k } }
  draws s := s.cpu.draws
  afterDraw s := { s with cpu := { s.cpu with draws := s.cpu.draws + 1 } }
  params s := s.cpu.params
  memRead s a := B.memRead s.store a
  memWrite s a w := { s with store := B.memWrite s.store a w }
  keyRead s k := B.keyRead s.store k
  screenClear s := { s with store := B.screenClear s.store }
  pixelRead s x y := B.pixelRead s.store x y
  pixelWrite s x y b := { s with store := B.pixelWrite s.store x y b }
  delayRead s := B.delayRead s.store
  delayWrite s w := { s with store := B.delayWrite s.store w }
  soundWrite s w := { s with store := B.soundWrite s.store w }

/-- The reasons of the two model faults (R282). -/
inductive FaultReason where
  | stackOverflow
  | keyIndexOutOfRange
  deriving DecidableEq, Repr

/-- What the engine answers over a machine of type M: the next one, or a model fault with its reason, the address of the
instruction and the machine left (R282). -/
inductive CpuResult (M : Type) where
  | next (s : M)
  | fault (reason : FaultReason) (addr : Addr) (left : M)
  deriving DecidableEq, Repr

end Sys2Proof.Machine
end

