-- ==== Sys2Proof/Machine/State.lean ====
section
/-! DEFINITION. The machine's state (10_state.md), its value at construction (R38), and the reasons a step can stop
(60_exceptions.md R282). Plain data throughout. -/

namespace Sys2Proof.Machine

/-- MEM (R32) as a list of (address, byte) pairs in the canonical form of `Memory.wf`: an address not listed reads as
it did at construction with the default parameters and an empty image (`initByte`, Machine/Memory.lean). -/
abbrev Memory := List Host.Cell

/-- VIDEO[x][y] (R33): 64 columns of 32 booleans. -/
abbrev Video := Vector (Vector Bool 32) 64

/-- Everything the spec gives the machine, and the model's own `draws` and `params`. -/
structure State where
  /-- V[0]..V[15] (R20). -/
  v : Vector Byte 16
  /-- PC (R23). -/
  pc : Addr
  /-- I (R27); bits 15:12 of its storage are hard-wired 0 (R31) and not held. -/
  i : Addr
  /-- STACK (R28); the head of the list is the most recently pushed entry. -/
  stack : List Addr
  /-- KEY_AWAIT (R29). -/
  keyAwait : Option RegIdx
  /-- MEM (R32). -/
  mem : Memory
  /-- VIDEO (R33). -/
  video : Video
  /-- KEYS (R34). -/
  keys : Vector Bool 16
  /-- DT (R35). -/
  dt : Byte
  /-- ST (R36). -/
  st : Byte
  /-- The model's own: how many free values have been drawn (R37, R63; log 7). -/
  draws : Nat
  /-- The model's own: the open parameters of R9, fixed for a session (log 5, log 6). -/
  params : Params
  deriving DecidableEq, Repr

/-- The state right after construction with the default parameters and an empty image (R38, R330, R332). -/
def State.reset : State where
  v := Vector.replicate 16 0#8
  pc := 0x200#12
  i := 0#12
  stack := []
  keyAwait := none
  mem := []
  video := Vector.replicate 64 (Vector.replicate 32 false)
  keys := Vector.replicate 16 false
  dt := 0#8
  st := 0#8
  draws := 0
  params := Params.default

/-- The model faults of R282, possible only at non-default parameters. Each holds the address of the faulting
instruction and the state left: as before that instruction's fetch, but with PC at the fetch address plus 2. -/
inductive Fault where
  /-- Raised by 2NNN when STACK_CAPACITY is finite and STACK holds that many entries (R134). Safe: the hardware as the
  source describes it would go on. -/
  | stackOverflow (addr : Addr) (left : State)
  /-- Raised by EX9E and EXA1 when KEY_OOR_POLICY is `fault` and V[X] > 15 (R252). Safe: the spec allows any result. -/
  | keyIndexOutOfRange (addr : Addr) (left : State)
  deriving DecidableEq, Repr

/-- The reasons to refuse an instruction. -/
inductive Refusal where
  /-- Raised by an arm of `exec` whose instruction has no meaning yet; no arm raises it. Safe. -/
  | notModelled (mnemonic : String)
  deriving DecidableEq, Repr

/-- What a step or a meaning answers. -/
abbrev Result := Host.Outcome State Fault Refusal

end Sys2Proof.Machine
end

