-- ==== Sys2Proof/Machine/Memory.lean ====
section
/-! DEFINITION. The byte memory (20_memory.md R50 to R57): what it holds at construction, reading and writing one
byte, the canonical form, and loading an image. -/

namespace Sys2Proof.Machine

/-- FONT's default (D13, from general knowledge; log 2): glyph d at 5d, digits 0 to 7. -/
def fontLow : List Byte :=
  [0xF0, 0x90, 0x90, 0x90, 0xF0] ++ [0x20, 0x60, 0x20, 0x20, 0x70] ++
  [0xF0, 0x10, 0xF0, 0x80, 0xF0] ++ [0xF0, 0x10, 0xF0, 0x10, 0xF0] ++
  [0x90, 0x90, 0xF0, 0x10, 0x10] ++ [0xF0, 0x80, 0xF0, 0x10, 0xF0] ++
  [0xF0, 0x80, 0xF0, 0x90, 0xF0] ++ [0xF0, 0x10, 0x20, 0x40, 0x40]

/-- FONT's default (D13; log 2), digits 8 to F. -/
def fontHigh : List Byte :=
  [0xF0, 0x90, 0xF0, 0x90, 0xF0] ++ [0xF0, 0x90, 0xF0, 0x10, 0xF0] ++
  [0xF0, 0x90, 0xF0, 0x90, 0x90] ++ [0xE0, 0x90, 0xE0, 0x90, 0xE0] ++
  [0xF0, 0x80, 0x80, 0x80, 0xF0] ++ [0xE0, 0x90, 0x90, 0x90, 0xE0] ++
  [0xF0, 0x80, 0xF0, 0x80, 0xF0] ++ [0xF0, 0x80, 0xF0, 0x80, 0x80]

/-- The 80 bytes of the default font (R52: 0x000..0x04F). -/
def font : List Byte := fontLow ++ fontHigh

/-- MEM_INIT's default (D14): zero. DESIGN CHOICE, log 1. -/
def memInitByte : Byte := 0#8

/-- What an address reads as while nothing has been written there since construction with the default parameters and
an empty image (R38, R330): the font below 0x050, MEM_INIT above. -/
def initByte (a : Nat) : Byte := font.getD a memInitByte

/-- The byte at an address; a listed cell overrides the initial byte. -/
def Memory.read (m : Memory) (a : Nat) : Byte :=
  match m with
  | [] => initByte a
  | (b, w) :: rest => if a = b then w else Memory.read rest a

/-- Put a cell in front, unless it holds what its address reads as when unlisted. -/
def Memory.cons (a : Nat) (w : Byte) (m : Memory) : Memory :=
  if w = initByte a then m else (a, w) :: m

/-- Store one byte, keeping the canonical form. -/
def Memory.write (m : Memory) (a : Nat) (w : Byte) : Memory :=
  match m with
  | [] => Memory.cons a w []
  | (b, u) :: rest =>
    if a < b then Memory.cons a w ((b, u) :: rest)
    else if a = b then Memory.cons a w rest
    else (b, u) :: Memory.write rest a w

/-- Every listed address is past `lo`, below 0x1000 and rising, and no cell holds its address's initial byte. -/
def Memory.wfFrom (lo : Nat) (m : Memory) : Bool :=
  match m with
  | [] => true
  | (b, u) :: rest => lo ≤ b && b < 0x1000 && u != initByte b && Memory.wfFrom (b + 1) rest

/-- The canonical form: equal memories are equal lists. -/
def Memory.wf (m : Memory) : Bool := Memory.wfFrom 0 m

/-- Store consecutive bytes from an address up (R330: the font, MEM_INIT and the image are placed so). -/
def Memory.load (m : Memory) (a : Nat) (bytes : List Byte) : Memory :=
  match bytes with
  | [] => m
  | w :: rest => Memory.load (Memory.write m a w) (a + 1) rest

end Sys2Proof.Machine
end

