-- ==== Sys2Proof/Machine/Ops.lean ====
section
/-! DEFINITION. The named operations: the model's own store as a bus (20_memory.md R58), State's registers and store
accesses, and over any machine with ports the call stack, the free values, the model fault, the fetch (40_engine.md R112)
and the key poll (R111). The block takes no exception and has no return from one (60_exceptions.md R280, R285), so no
exception entry stands here; `modelFault` is the one way an instruction can stop (R282). -/

namespace Sys2Proof.Machine

/-! ## The model's store and its bus (R58) -/

/-- The cell at a column and a row, taken mod 64 and mod 32 (R59). -/
def Video.read (f : Video) (x y : Nat) : Bool :=
  (f[x % 64]'(Nat.mod_lt x (by decide)))[y % 32]'(Nat.mod_lt y (by decide))
/-- Setting the cell at a column and a row, taken mod 64 and mod 32 (R59). -/
def Video.write (f : Video) (x y : Nat) (b : Bool) : Video :=
  f.set (x % 64) ((f[x % 64]'(Nat.mod_lt x (by decide))).set (y % 32) b (Nat.mod_lt y (by decide)))
    (Nat.mod_lt x (by decide))

/-- The peripheral store of the model, plain data (10_state.md section 2). -/
structure Store where
  mem : Memory
  video : Video
  keys : Vector Bool 16
  dt : Byte
  st : Byte
  deriving DecidableEq, Repr

/-- The contract's operations on it (R58): no address is protected (R53), a key index is 0..15 (R60), and there is no
sound-counter read. -/
def storeBus : Bus Store where
  memRead p a := p.mem.read a.toNat
  memWrite p a w := { p with mem := p.mem.write a.toNat w }
  keyRead p k := p.keys[k]
  screenClear p := { p with video := Vector.replicate 64 (Vector.replicate 32 false) }
  pixelRead p x y := Video.read p.video x y
  pixelWrite p x y b := { p with video := Video.write p.video x y b }
  delayRead p := p.dt
  delayWrite p w := { p with dt := w }
  soundWrite p w := { p with st := w }

/-! ## CPU registers -/

/-- V[r] (R11, R20). -/
def State.reg (s : State) (r : RegIdx) : Byte := s.v[r]
/-- V[r] <- w (R11, R20); no register is hard-wired. -/
def State.setReg (s : State) (r : RegIdx) (w : Byte) : State := { s with v := s.v.set r w }
/-- PC <- a; the 12-bit type is the reduction mod 0x1000 (R11, R23). -/
def State.setPc (s : State) (a : Addr) : State := { s with pc := a }
/-- I <- a; the 12-bit type is the mask 0xFFF (R27). -/
def State.setI (s : State) (a : Addr) : State := { s with i := a }
/-- STACK <- l (R28). -/
def State.setStack (s : State) (l : List Addr) : State := { s with stack := l }
/-- KEY_AWAIT <- k (R29). -/
def State.setKeyAwait (s : State) (k : Option RegIdx) : State := { s with keyAwait := k }
/-- A draw is used up: the next one is fresh (R63; log 7). -/
def State.afterDraw (s : State) : State := { s with draws := s.draws + 1 }

/-! ## State's store accesses, each through the bus (R58) -/

/-- The store part of the state. -/
def State.store (s : State) : Store := ⟨s.mem, s.video, s.keys, s.dt, s.st⟩
/-- The state with another store. -/
def State.withStore (s : State) (p : Store) : State :=
  { s with mem := p.mem, video := p.video, keys := p.keys, dt := p.dt, st := p.st }

/-- MemRead (R54). -/
def State.memRead (s : State) (a : Addr) : Byte := storeBus.memRead s.store a
/-- MemWrite (R54). -/
def State.memWrite (s : State) (a : Addr) (w : Byte) : State := s.withStore (storeBus.memWrite s.store a w)
/-- KeyRead. -/
def State.keyRead (s : State) (k : KeyIdx) : Bool := storeBus.keyRead s.store k
/-- ScreenClear. -/
def State.screenClear (s : State) : State := s.withStore (storeBus.screenClear s.store)
/-- PixelRead (R59). -/
def State.pixelRead (s : State) (x y : Nat) : Bool := storeBus.pixelRead s.store x y
/-- PixelWrite (R59). -/
def State.pixelWrite (s : State) (x y : Nat) (b : Bool) : State := s.withStore (storeBus.pixelWrite s.store x y b)
/-- DelayRead. -/
def State.delayRead (s : State) : Byte := storeBus.delayRead s.store
/-- DelayWrite. -/
def State.delayWrite (s : State) (w : Byte) : State := s.withStore (storeBus.delayWrite s.store w)
/-- SoundWrite. -/
def State.soundWrite (s : State) (w : Byte) : State := s.withStore (storeBus.soundWrite s.store w)

/-- The CPU engine's ports on State. -/
def statePorts : Ports State where
  reg := State.reg
  setReg := State.setReg
  pc := State.pc
  setPc := State.setPc
  index := State.i
  setIndex := State.setI
  stack := State.stack
  setStack := State.setStack
  keyAwait := State.keyAwait
  setKeyAwait := State.setKeyAwait
  draws := State.draws
  afterDraw := State.afterDraw
  params := State.params
  memRead := State.memRead
  memWrite := State.memWrite
  keyRead := State.keyRead
  screenClear := State.screenClear
  pixelRead := State.pixelRead
  pixelWrite := State.pixelWrite
  delayRead := State.delayRead
  delayWrite := State.delayWrite
  soundWrite := State.soundWrite

/-- State as a CPU engine beside a store. -/
def State.split (s : State) : Sys Store :=
  ⟨⟨s.v, s.pc, s.i, s.stack, s.keyAwait, s.draws, s.params⟩, s.store⟩

/-! ## The engine's shared operations, over any machine with ports -/

variable {M : Type} (o : Ports M)

/-- The next free byte (R12 `Draw()`, R63). -/
def Ports.nextByte (s : M) : Byte := Config.freeByte (o.draws s)
/-- The next free boolean (R12 `Draw()`). -/
def Ports.nextBit (s : M) : Bool := Config.freeBit (o.draws s)

/-- Whether STACK holds STACK_CAPACITY entries (R28, R134); never, when the capacity is unbounded (D9). -/
def Ports.stackFull (s : M) : Bool :=
  match (o.params s).stackCapacity with
  | none => false
  | some c => c ≤ (o.stack s).length

/-- Stop at the instruction being executed (R282). PC already holds the fetch address plus 2 and the fetch changes nothing
else, so the machine left is the present one. -/
def Ports.modelFault (reason : FaultReason) (s : M) : CpuResult M := .fault reason (o.pc s - 2#12) s

/-- The opcode at PC (R112): two byte reads, big-endian, the second address wrapping (R55, R56). -/
def Ports.fetchWord (s : M) : Opcode := opcodeOfBytes (o.memRead s (o.pc s)) (o.memRead s (o.pc s + 1#12))
/-- PC after the fetch (R112). -/
def Ports.afterFetch (s : M) : M := o.setPc s (o.pc s + 1#12 + 1#12)

/-- The lowest pressed key (R111). -/
def Ports.firstPressed (s : M) : Option KeyIdx := (List.finRange 16).find? fun k => o.keyRead s k
/-- The poll for a waiting register r (R111): the lowest pressed key ends the wait; with none pressed nothing changes. -/
def Ports.keyPoll (s : M) (r : RegIdx) : M :=
  match o.firstPressed s with
  | some k => o.setKeyAwait (o.setReg s r (BitVec.ofNat 8 k)) none
  | none => s

/-! ## The same on State -/

/-- The next free byte. -/
def State.nextByte (s : State) : Byte := statePorts.nextByte s
/-- The next free boolean. -/
def State.nextBit (s : State) : Bool := statePorts.nextBit s
/-- The opcode at PC (R112). -/
def State.fetchWord (s : State) : Opcode := statePorts.fetchWord s
/-- PC after the fetch (R112). -/
def State.afterFetch (s : State) : State := statePorts.afterFetch s
/-- Whether STACK is full (R134). -/
def State.stackFull (s : State) : Bool := statePorts.stackFull s
/-- The lowest pressed key (R111). -/
def State.firstPressed (s : State) : Option KeyIdx := statePorts.firstPressed s
/-- The key poll (R111). -/
def State.keyPoll (s : State) (r : RegIdx) : State := statePorts.keyPoll s r

/-- The engine's answer on State as the machine's outcome. -/
def CpuResult.toResult (r : CpuResult State) : Result :=
  match r with
  | .next s => .next s
  | .fault .stackOverflow addr left => .fault (.stackOverflow addr left)
  | .fault .keyIndexOutOfRange addr left => .fault (.keyIndexOutOfRange addr left)

/-! ## Placing an instruction word -/

/-- An opcode stored at PC, high byte first (R55). -/
def State.placeWord (s : State) (op : Opcode) : State :=
  (s.memWrite s.pc (opcodeHi op)).memWrite (s.pc + 1#12) (opcodeLo op)

end Sys2Proof.Machine
end

