-- ==== Sys2Proof/Machine/Flags.lean ====
section
/-! DEFINITION. The values written to VF as a flag (10_state.md R30) and the order of the two writes (R14, R21). -/

namespace Sys2Proof.Machine

/-- Carry out of an addition (8XY4, R166). -/
def carryFlag (a b : Byte) : Byte := if 255 < a.toNat + b.toNat then 1#8 else 0#8
/-- NOT borrow of a - b (8XY5 and 8XY7, R167, R169). -/
def notBorrowFlag (a b : Byte) : Byte := if a.toNat < b.toNat then 0#8 else 1#8
/-- The bit a right shift loses, bit 0 (8XY6, R168). -/
def lowBitFlag (a : Byte) : Byte := a &&& 1#8
/-- The bit a left shift loses, bit 7 (8XYE, R170). -/
def highBitFlag (a : Byte) : Byte := (a >>> 7) &&& 1#8

/-- V[x] <- w, then VF <- f: the flag write comes last and wins when x is VF (R21). -/
def Ports.setRegFlag {M : Type} (o : Ports M) (s : M) (x : RegIdx) (w f : Byte) : M := o.setReg (o.setReg s x w) VF f

/-- The same on State. -/
def State.setRegFlag (s : State) (x : RegIdx) (w f : Byte) : State := statePorts.setRegFlag s x w f

end Sys2Proof.Machine
end

