-- ==== Sys2Proof/Machine/Alu.lean ====
section
/-! DEFINITION. Register and arithmetic instructions (42_alu.md). Every operand is read before any write (R14, D3). Each
instruction is written once, over any machine with ports (R61), and `exec…` is it on State. -/

namespace Sys2Proof.Machine

variable {M : Type} (o : Ports M)

/-- 6XNN (R160). -/
def Ports.ldImm (x : RegIdx) (nn : Byte) (s : M) : M := o.setReg s x nn
/-- 6XNN on State. -/
def execLdImm (x : RegIdx) (nn : Byte) (s : State) : Result := .next (statePorts.ldImm x nn s)

/-- 7XNN (R161): modulo 256, no flag. -/
def Ports.addImm (x : RegIdx) (nn : Byte) (s : M) : M := o.setReg s x (o.reg s x + nn)
/-- 7XNN on State. -/
def execAddImm (x : RegIdx) (nn : Byte) (s : State) : Result := .next (statePorts.addImm x nn s)

/-- 8XY0 (R162). -/
def Ports.ldReg (x y : RegIdx) (s : M) : M := o.setReg s x (o.reg s y)
/-- 8XY0 on State. -/
def execLdReg (x y : RegIdx) (s : State) : Result := .next (statePorts.ldReg x y s)

/-- 8XY1 (R163): VF is not reset. -/
def Ports.orReg (x y : RegIdx) (s : M) : M := o.setReg s x (o.reg s x ||| o.reg s y)
/-- 8XY1 on State. -/
def execOrReg (x y : RegIdx) (s : State) : Result := .next (statePorts.orReg x y s)

/-- 8XY2 (R164): VF is not reset. -/
def Ports.andReg (x y : RegIdx) (s : M) : M := o.setReg s x (o.reg s x &&& o.reg s y)
/-- 8XY2 on State. -/
def execAndReg (x y : RegIdx) (s : State) : Result := .next (statePorts.andReg x y s)

/-- 8XY3 (R165): VF is not reset. -/
def Ports.xorReg (x y : RegIdx) (s : M) : M := o.setReg s x (o.reg s x ^^^ o.reg s y)
/-- 8XY3 on State. -/
def execXorReg (x y : RegIdx) (s : State) : Result := .next (statePorts.xorReg x y s)

/-- 8XY4 (R166). -/
def Ports.addReg (x y : RegIdx) (s : M) : M :=
  o.setRegFlag s x (o.reg s x + o.reg s y) (carryFlag (o.reg s x) (o.reg s y))
/-- 8XY4 on State. -/
def execAddReg (x y : RegIdx) (s : State) : Result := .next (statePorts.addReg x y s)

/-- 8XY5 (R167): V[X] - V[Y]. -/
def Ports.subReg (x y : RegIdx) (s : M) : M :=
  o.setRegFlag s x (o.reg s x - o.reg s y) (notBorrowFlag (o.reg s x) (o.reg s y))
/-- 8XY5 on State. -/
def execSubReg (x y : RegIdx) (s : State) : Result := .next (statePorts.subReg x y s)

/-- 8XY6 (R168): V[Y], not V[X], is shifted. -/
def Ports.shr (x y : RegIdx) (s : M) : M :=
  o.setRegFlag s x (o.reg s y >>> 1) (lowBitFlag (o.reg s y))
/-- 8XY6 on State. -/
def execShr (x y : RegIdx) (s : State) : Result := .next (statePorts.shr x y s)

/-- 8XY7 (R169): V[Y] - V[X]. -/
def Ports.subn (x y : RegIdx) (s : M) : M :=
  o.setRegFlag s x (o.reg s y - o.reg s x) (notBorrowFlag (o.reg s y) (o.reg s x))
/-- 8XY7 on State. -/
def execSubn (x y : RegIdx) (s : State) : Result := .next (statePorts.subn x y s)

/-- 8XYE (R170): V[Y], not V[X], is shifted. -/
def Ports.shl (x y : RegIdx) (s : M) : M :=
  o.setRegFlag s x (o.reg s y <<< 1) (highBitFlag (o.reg s y))
/-- 8XYE on State. -/
def execShl (x y : RegIdx) (s : State) : Result := .next (statePorts.shl x y s)

/-- CXNN (R171): one fresh free byte, masked. -/
def Ports.rnd (x : RegIdx) (nn : Byte) (s : M) : M := o.setReg (o.afterDraw s) x (o.nextByte s &&& nn)
/-- CXNN on State. -/
def execRnd (x : RegIdx) (nn : Byte) (s : State) : Result := .next (statePorts.rnd x nn s)

end Sys2Proof.Machine
end

