-- ==== Sys2Proof/Machine/Operands.lean ====
section
/-! DEFINITION. The operand forms that are computed: the one data address (43_index_memory.md R200), the skip
(41_control.md R130), the key test (45_keypad_timers.md R252), the font address, the decimal digits and the register
blocks. -/

namespace Sys2Proof.Machine

variable {M : Type} (o : Ports M)

/-- The address of the k-th byte from I, mod 0x1000 (R200, D6). -/
def Ports.dataAddr (s : M) (k : Nat) : Addr := o.index s + BitVec.ofNat 12 k

/-- Skip the next word when the condition holds: PC, already past this instruction, moves on by 2 (R130). -/
def Ports.skipIf (s : M) (c : Bool) : M := if c then o.setPc s (o.pc s + 2#12) else s

/-- The result of a key test (R252): the boolean and the machine after it (a draw is used up), or none where the policy
makes it a model fault. -/
def Ports.keyTest (s : M) (k : Byte) : Option (Bool × M) :=
  if h : k.toNat < 16 then some (o.keyRead s ⟨k.toNat, h⟩, s)
  else match (o.params s).keyOorPolicy with
    | .draw => some (o.nextBit s, o.afterDraw s)
    | .mask => some (o.keyRead s ⟨k.toNat % 16, Nat.mod_lt _ (by decide)⟩, s)
    | .notPressed => some (false, s)
    | .fault => none

/-- The address of a glyph: the font base 0x000 plus five bytes a glyph (R203). -/
def glyphAddr (w : Byte) : Addr := BitVec.ofNat 12 (w.toNat * 5)

/-- The hundreds of a byte (R204). -/
def hundreds (w : Byte) : Byte := BitVec.ofNat 8 (w.toNat / 100)
/-- The tens of a byte (R204). -/
def tens (w : Byte) : Byte := BitVec.ofNat 8 (w.toNat / 10 % 10)
/-- The ones of a byte (R204). -/
def ones (w : Byte) : Byte := BitVec.ofNat 8 (w.toNat % 10)

/-- Store V[0]..V[n-1] at I, I + 1, … (R205). -/
def Ports.storeRegs {M : Type} (o : Ports M) (s : M) : Nat → M
  | 0 => s
  | n + 1 =>
    let t := o.storeRegs s n
    o.memWrite t (o.dataAddr t n) (o.reg t (Fin.ofNat 16 n))

/-- Load V[0]..V[n-1] from I, I + 1, … (R206). -/
def Ports.loadRegs {M : Type} (o : Ports M) (s : M) : Nat → M
  | 0 => s
  | n + 1 =>
    let t := o.loadRegs s n
    o.setReg t (Fin.ofNat 16 n) (o.memRead t (o.dataAddr t n))

/-! ## The same on State -/

/-- The address of the k-th byte from I (R200). -/
def State.dataAddr (s : State) (k : Nat) : Addr := statePorts.dataAddr s k
/-- A skip (R130). -/
def State.skipIf (s : State) (c : Bool) : State := statePorts.skipIf s c
/-- A key test (R252). -/
def State.keyTest (s : State) (k : Byte) : Option (Bool × State) := statePorts.keyTest s k
/-- A block store (R205). -/
def State.storeRegs (s : State) (n : Nat) : State := statePorts.storeRegs s n
/-- A block load (R206). -/
def State.loadRegs (s : State) (n : Nat) : State := statePorts.loadRegs s n

end Sys2Proof.Machine
end

