-- ==== Sys2Proof/Machine/Control.lean ====
section
/-! DEFINITION. Control transfer and skips (41_control.md), and the unmatched words (30_encoding.md R86). Every
meaning runs after the fetch: PC already holds the fetch address plus 2 (R113). Each instruction is written once, over any
machine with ports (R61), and `exec…` is it on State. -/

namespace Sys2Proof.Machine

variable {M : Type} (o : Ports M)

/-- A word that matches no pattern: a no-op (R86). -/
def Ports.unmatched {M : Type} (_o : Ports M) (s : M) : M := s
/-- An unmatched word on State. -/
def execUnmatched (s : State) : Result := .next (statePorts.unmatched s)

/-- 00EE (R131): pop the return address; on an empty stack nothing, PC stays past the 00EE (C5). -/
def Ports.ret (s : M) : M :=
  match o.stack s with
  | [] => s
  | a :: rest => o.setPc (o.setStack s rest) a
/-- 00EE on State. -/
def execRet (s : State) : Result := .next (statePorts.ret s)

/-- 0NNN (R132): a no-op. -/
def Ports.sys {M : Type} (_o : Ports M) (_nnn : Addr) (s : M) : M := s
/-- 0NNN on State. -/
def execSys (nnn : Addr) (s : State) : Result := .next (statePorts.sys nnn s)

/-- 1NNN (R133). -/
def Ports.jp (nnn : Addr) (s : M) : M := o.setPc s nnn
/-- 1NNN on State. -/
def execJp (nnn : Addr) (s : State) : Result := .next (statePorts.jp nnn s)

/-- 2NNN (R134): push PC, which is past the 2NNN, then jump; a full stack of finite capacity is a model fault. -/
def Ports.call (nnn : Addr) (s : M) : CpuResult M :=
  if o.stackFull s then o.modelFault .stackOverflow s
  else .next (o.setPc (o.setStack s (o.pc s :: o.stack s)) nnn)
/-- 2NNN on State. -/
def execCall (nnn : Addr) (s : State) : Result := (statePorts.call nnn s).toResult

/-- 3XNN (R135). -/
def Ports.seImm (x : RegIdx) (nn : Byte) (s : M) : M := o.skipIf s (o.reg s x == nn)
/-- 3XNN on State. -/
def execSeImm (x : RegIdx) (nn : Byte) (s : State) : Result := .next (statePorts.seImm x nn s)

/-- 4XNN (R136). -/
def Ports.sneImm (x : RegIdx) (nn : Byte) (s : M) : M := o.skipIf s (o.reg s x != nn)
/-- 4XNN on State. -/
def execSneImm (x : RegIdx) (nn : Byte) (s : State) : Result := .next (statePorts.sneImm x nn s)

/-- 5XY0 (R137). -/
def Ports.seReg (x y : RegIdx) (s : M) : M := o.skipIf s (o.reg s x == o.reg s y)
/-- 5XY0 on State. -/
def execSeReg (x y : RegIdx) (s : State) : Result := .next (statePorts.seReg x y s)

/-- 9XY0 (R138). -/
def Ports.sneReg (x y : RegIdx) (s : M) : M := o.skipIf s (o.reg s x != o.reg s y)
/-- 9XY0 on State. -/
def execSneReg (x y : RegIdx) (s : State) : Result := .next (statePorts.sneReg x y s)

/-- BNNN (R139): the sum wraps mod 0x1000 (D7); the register is always V[0]. -/
def Ports.jpV0 (nnn : Addr) (s : M) : M := o.setPc s (nnn + (o.reg s 0).setWidth 12)
/-- BNNN on State. -/
def execJpV0 (nnn : Addr) (s : State) : Result := .next (statePorts.jpV0 nnn s)

end Sys2Proof.Machine
end

