-- ==== Sys2Proof/Machine/Display.lean ====
section
/-! DEFINITION. Display instructions (44_display.md). Each instruction is written once, over any machine with ports (R61),
and `exec…` is it on State. -/

namespace Sys2Proof.Machine

variable {M : Type} (o : Ports M)

/-- 00E0 (R231). -/
def Ports.cls (s : M) : M := o.screenClear s
/-- 00E0 on State. -/
def execCls (s : State) : Result := .next (statePorts.cls s)

/-- Toggle one pixel; turning a set pixel off sets VF (R232, the body of the inner loop). -/
def Ports.togglePixel (s : M) (px py : Nat) : M :=
  let old := o.pixelRead s px py
  let t := o.pixelWrite s px py (!old)
  if old then o.setReg t VF 1#8 else t

/-- The first n columns of a sprite row: bit 7 - col of the row's byte is column col (R233, D5; log 8). -/
def Ports.drawCols {M : Type} (o : Ports M) (s : M) (b : Byte) (vx py : Nat) : Nat → M
  | 0 => s
  | col + 1 =>
    let t := o.drawCols s b vx py col
    if b.getLsbD (7 - col) then o.togglePixel t (vx + col) py else t

/-- The first n rows of the sprite at I (R232). -/
def Ports.drawRows {M : Type} (o : Ports M) (s : M) (vx vy : Nat) : Nat → M
  | 0 => s
  | row + 1 =>
    let t := o.drawRows s vx vy row
    o.drawCols t (o.memRead t (o.dataAddr t row)) vx (vy + row) 8

/-- DXYN (R232): the coordinates are read before VF is reset (D4; log 10). -/
def Ports.drw (x y : RegIdx) (n : Nibble) (s : M) : M :=
  o.drawRows (o.setReg s VF 0#8) (o.reg s x).toNat (o.reg s y).toNat n.toNat
/-- DXYN on State. -/
def execDrw (x y : RegIdx) (n : Nibble) (s : State) : Result := .next (statePorts.drw x y n s)

/-! ## The drawing loops on State -/

/-- Toggling one pixel. -/
def State.togglePixel (s : State) (px py : Nat) : State := statePorts.togglePixel s px py
/-- Drawing columns. -/
def State.drawCols (s : State) (b : Byte) (vx py n : Nat) : State := statePorts.drawCols s b vx py n
/-- Drawing rows. -/
def State.drawRows (s : State) (vx vy n : Nat) : State := statePorts.drawRows s vx vy n

end Sys2Proof.Machine
end

