-- ==== Sys2Proof/Machine/IndexMemory.lean ====
section
/-! DEFINITION. Index register and memory instructions (43_index_memory.md). Each instruction is written once, over any
machine with ports (R61), and `exec…` is it on State. -/

namespace Sys2Proof.Machine

variable {M : Type} (o : Ports M)

/-- ANNN (R201). -/
def Ports.ldI (nnn : Addr) (s : M) : M := o.setIndex s nnn
/-- ANNN on State. -/
def execLdI (nnn : Addr) (s : State) : Result := .next (statePorts.ldI nnn s)

/-- FX1E (R202): masked to 12 bits, no flag. -/
def Ports.addI (x : RegIdx) (s : M) : M := o.setIndex s (o.index s + (o.reg s x).setWidth 12)
/-- FX1E on State. -/
def execAddI (x : RegIdx) (s : State) : Result := .next (statePorts.addI x s)

/-- FX29 (R203): the whole byte selects the glyph. -/
def Ports.ldF (x : RegIdx) (s : M) : M := o.setIndex s (glyphAddr (o.reg s x))
/-- FX29 on State. -/
def execLdF (x : RegIdx) (s : State) : Result := .next (statePorts.ldF x s)

/-- FX33 (R204): hundreds at I, tens at I + 1, ones at I + 2. -/
def Ports.ldB (x : RegIdx) (s : M) : M :=
  let w := o.reg s x
  o.memWrite (o.memWrite (o.memWrite s (o.dataAddr s 0) (hundreds w)) (o.dataAddr s 1) (tens w)) (o.dataAddr s 2) (ones w)
/-- FX33 on State. -/
def execLdB (x : RegIdx) (s : State) : Result := .next (statePorts.ldB x s)

/-- FX55 (R205): store V[0]..V[X], then I <- I + X + 1. -/
def Ports.ldMemVx (x : RegIdx) (s : M) : M := o.setIndex (o.storeRegs s (x + 1)) (o.dataAddr s (x + 1))
/-- FX55 on State. -/
def execLdMemVx (x : RegIdx) (s : State) : Result := .next (statePorts.ldMemVx x s)

/-- FX65 (R206): load V[0]..V[X], then I <- I + X + 1. -/
def Ports.ldVxMem (x : RegIdx) (s : M) : M := o.setIndex (o.loadRegs s (x + 1)) (o.dataAddr s (x + 1))
/-- FX65 on State. -/
def execLdVxMem (x : RegIdx) (s : State) : Result := .next (statePorts.ldVxMem x s)

end Sys2Proof.Machine
end

