-- ==== Sys2Proof/Machine/Keypad.lean ====
section
/-! DEFINITION. Keypad and timer instructions (45_keypad_timers.md). Each instruction is written once, over any machine
with ports (R61), and `exec…` is it on State. -/

namespace Sys2Proof.Machine

variable {M : Type} (o : Ports M)

/-- EX9E (R250): skip if the key is pressed. -/
def Ports.skp (x : RegIdx) (s : M) : CpuResult M :=
  match o.keyTest s (o.reg s x) with
  | some (pressed, t) => .next (o.skipIf t pressed)
  | none => o.modelFault .keyIndexOutOfRange s
/-- EX9E on State. -/
def execSkp (x : RegIdx) (s : State) : Result := (statePorts.skp x s).toResult

/-- EXA1 (R251): skip if the key is not pressed; a draw is taken once and negated. -/
def Ports.sknp (x : RegIdx) (s : M) : CpuResult M :=
  match o.keyTest s (o.reg s x) with
  | some (pressed, t) => .next (o.skipIf t (!pressed))
  | none => o.modelFault .keyIndexOutOfRange s
/-- EXA1 on State. -/
def execSknp (x : RegIdx) (s : State) : Result := (statePorts.sknp x s).toResult

/-- FX07 (R253). -/
def Ports.ldVxDt (x : RegIdx) (s : M) : M := o.setReg s x (o.delayRead s)
/-- FX07 on State. -/
def execLdVxDt (x : RegIdx) (s : State) : Result := .next (statePorts.ldVxDt x s)

/-- FX0A (R254): enter the key wait; the key is read by later polls. -/
def Ports.ldVxK (x : RegIdx) (s : M) : M := o.setKeyAwait s (some x)
/-- FX0A on State. -/
def execLdVxK (x : RegIdx) (s : State) : Result := .next (statePorts.ldVxK x s)

/-- FX15 (R255). -/
def Ports.ldDtVx (x : RegIdx) (s : M) : M := o.delayWrite s (o.reg s x)
/-- FX15 on State. -/
def execLdDtVx (x : RegIdx) (s : State) : Result := .next (statePorts.ldDtVx x s)

/-- FX18 (R256). -/
def Ports.ldStVx (x : RegIdx) (s : M) : M := o.soundWrite s (o.reg s x)
/-- FX18 on State. -/
def execLdStVx (x : RegIdx) (s : State) : Result := .next (statePorts.ldStVx x s)

end Sys2Proof.Machine
end

