-- ==== Sys2Proof/Machine/Engine.lean ====
section
/-! DEFINITION. The CPU engine's step over any machine with ports, and so over any peripheral store that implements the
bus contract (20_memory.md R61). `exec` and `step` are the same on State. -/

namespace Sys2Proof.Machine

variable {M : Type} (o : Ports M)

/-- One instruction, in the table's order. -/
def Ports.exec (i : Instr) (s : M) : CpuResult M :=
  match i with
  | .cls => .next (o.cls s)
  | .ret => .next (o.ret s)
  | .sys nnn => .next (o.sys nnn s)
  | .jp nnn => .next (o.jp nnn s)
  | .call nnn => o.call nnn s
  | .seImm x nn => .next (o.seImm x nn s)
  | .sneImm x nn => .next (o.sneImm x nn s)
  | .seReg x y => .next (o.seReg x y s)
  | .sneReg x y => .next (o.sneReg x y s)
  | .ldImm x nn => .next (o.ldImm x nn s)
  | .addImm x nn => .next (o.addImm x nn s)
  | .ldReg x y => .next (o.ldReg x y s)
  | .orReg x y => .next (o.orReg x y s)
  | .andReg x y => .next (o.andReg x y s)
  | .xorReg x y => .next (o.xorReg x y s)
  | .addReg x y => .next (o.addReg x y s)
  | .subReg x y => .next (o.subReg x y s)
  | .shr x y => .next (o.shr x y s)
  | .subn x y => .next (o.subn x y s)
  | .shl x y => .next (o.shl x y s)
  | .ldI nnn => .next (o.ldI nnn s)
  | .jpV0 nnn => .next (o.jpV0 nnn s)
  | .rnd x nn => .next (o.rnd x nn s)
  | .drw x y n => .next (o.drw x y n s)
  | .skp x => o.skp x s
  | .sknp x => o.sknp x s
  | .ldVxDt x => .next (o.ldVxDt x s)
  | .ldVxK x => .next (o.ldVxK x s)
  | .ldDtVx x => .next (o.ldDtVx x s)
  | .ldStVx x => .next (o.ldStVx x s)
  | .addI x => .next (o.addI x s)
  | .ldF x => .next (o.ldF x s)
  | .ldB x => .next (o.ldB x s)
  | .ldMemVx x => .next (o.ldMemVx x s)
  | .ldVxMem x => .next (o.ldVxMem x s)

/-- Execute a fetched word (R113); a word that matches no pattern is a no-op (R86). -/
def Ports.execWord (op : Opcode) (s : M) : CpuResult M :=
  match decode op with
  | .ok i => o.exec i s
  | .error _ => .next (o.unmatched s)

/-- One step (R110): a key poll while waiting, else fetch, decode and execute. -/
def Ports.step (s : M) : CpuResult M :=
  match o.keyAwait s with
  | some r => .next (o.keyPoll s r)
  | none => o.execWord (o.fetchWord s) (o.afterFetch s)

/-- The CPU's step beside a store of bus B (R61). -/
def Bus.step {σ : Type} (B : Bus σ) (s : Sys σ) : CpuResult (Sys σ) := B.ports.step s

end Sys2Proof.Machine
end

