-- ==== Sys2Proof/Machine/Step.lean ====
section
/-! DEFINITION. One step (40_engine.md R110): a key poll while waiting, else fetch, decode and execute. -/

namespace Sys2Proof.Machine

/-- Execute a fetched word (R113); a word that matches no pattern is a no-op (R86). -/
def execWord (op : Opcode) (s : State) : Result :=
  match decode op with
  | .ok i => exec i s
  | .error _ => execUnmatched s

/-- R110. -/
def step (s : State) : Result :=
  match s.keyAwait with
  | some r => .next (s.keyPoll r)
  | none => execWord s.fetchWord s.afterFetch

/-- The table word w placed where the next step fetches, and the key wait ended, so that the next step runs it
(log 20). -/
def State.withFetchWord (s : State) (nbits w : Nat) : State :=
  (s.setKeyAwait none).placeWord (tableOpcode nbits w)

end Sys2Proof.Machine
end

