-- ==== Sys2Proof/Machine/Session.lean ====
section
/-! DEFINITION. The agents beside the CPU and the host's interface (60_exceptions.md R287 to R296,
70_reset_and_hazards.md R330 to R334): construction, the two timer ticks, key changes, the CPU reset, the outputs, and
a run as any finite list of atomic operations. -/

namespace Sys2Proof.Machine

/-- One tick of the delay unit (R287). -/
def State.delayTick (s : State) : State := if 0 < s.delayRead.toNat then s.delayWrite (s.delayRead - 1#8) else s
/-- One tick of the sound unit (R288). -/
def State.soundTick (s : State) : State := if 0 < s.st.toNat then s.soundWrite (s.st - 1#8) else s
/-- The beep predicate (R289). -/
def State.beeping (s : State) : Bool := s.st != 0#8
/-- What the host sees when it samples the frame buffer (R292). -/
def State.sampleVideo (s : State) : Video := s.video
/-- The host sets or releases a key (R293). -/
def State.setKey (s : State) (k : KeyIdx) (down : Bool) : State := { s with keys := s.keys.set k down }

/-- The CPU reset (R333); the peripheral store keeps its values (R334), and so do the model's own fields. -/
def State.cpuReset (s : State) : State :=
  { s with v := Vector.replicate 16 0#8, i := 0#12, pc := 0x200#12, stack := [], keyAwait := none }

/-- MEM at construction (R330): MEM_INIT everywhere, then FONT from 0x000, then the image from 0x200. -/
def Memory.construct (fontBytes : Vector Byte 80) (memInit : Vector Byte 4096) (image : List Byte) : Memory :=
  ((Memory.load [] 0 memInit.toList).load 0 fontBytes.toList).load 0x200 image

/-- Construction (R330, R332): none, and so no state, for an image longer than 0xE00 bytes (R331). -/
def State.construct (params : Params) (fontBytes : Vector Byte 80) (memInit : Vector Byte 4096)
    (image : List Byte) : Option State :=
  if image.length ≤ 0xE00 then
    some { State.reset with mem := Memory.construct fontBytes memInit image, params := params }
  else none

/-- The operations the host invokes once a session is constructed (R296). Sampling changes no state and is no
operation here; to stop is to invoke no more. -/
inductive HostOp where
  | step
  | delayTick
  | soundTick
  | setKey (k : KeyIdx) (down : Bool)
  | cpuReset
  deriving DecidableEq, Repr

/-- One operation, atomic (R295). -/
def applyOp (o : HostOp) (s : State) : Result :=
  match o with
  | .step => Sys2Proof.Machine.step s
  | .delayTick => .next s.delayTick
  | .soundTick => .next s.soundTick
  | .setKey k down => .next (s.setKey k down)
  | .cpuReset => .next s.cpuReset

/-- A run (R343): the host's operations in its order, stopping at the first model fault (R282). -/
def runOps (ops : List HostOp) (s : State) : Result :=
  match ops with
  | [] => .next s
  | o :: rest =>
    match applyOp o s with
    | .next t => runOps rest t
    | .fault f => .fault f
    | .refused r => .refused r

end Sys2Proof.Machine
end

