-- ==== Sys2Proof/Safety.lean ====
section
/-! DEFINITION. The terms claims use: the invariant, the reachable states, what an instruction leaves unchanged
(frames), stores behind the bus contract, and the spec's tables about registers, PC, key tests and sprites as functions of
the state. -/

namespace Sys2Proof.Machine

/-! ## Invariant and reachable states -/

/-- The stack never outgrows a finite STACK_CAPACITY (R134, R282). -/
def State.StackWithin (s : State) : Prop := ∀ c, s.params.stackCapacity = some c → s.stack.length ≤ c

/-- What every operation keeps: memory in its canonical form, and the stack within its capacity. The width of every
register is its type. -/
structure CoreInv (s : State) : Prop where
  memCanonical : s.mem.wf = true
  stackWithin : s.StackWithin

/-- Parameters under which no model fault exists (R282); the defaults are such. -/
def FaultFree (p : Params) : Prop := p.stackCapacity = none ∧ p.keyOorPolicy ≠ .fault

/-- The states of a session (R343): any construction, then any operations in any order (R295). -/
inductive Reachable : State → Prop where
  | construct {s : State} (params : Params) (fontBytes : Vector Byte 80) (memInit : Vector Byte 4096)
      (image : List Byte) (h : State.construct params fontBytes memInit image = some s) : Reachable s
  | op {s t : State} (o : HostOp) (hs : Reachable s) (h : applyOp o s = .next t) : Reachable t

/-! ## Frames -/

/-- The parts of the state other than the general registers, the keys and the parameters. -/
inductive Part where
  | pc | index | stack | keyAwait | memory | video | delay | sound | draws
  deriving DecidableEq, Repr

/-- Between s and t nothing changed but the listed parts and the listed general registers. Keys and parameters never
change in an instruction. Memory and video are compared through the reads of the bus contract. -/
structure Frame (parts : List Part) (written : List RegIdx) (s t : State) : Prop where
  regs : ∀ r, r ∉ written → t.reg r = s.reg r
  pc : Part.pc ∉ parts → t.pc = s.pc
  index : Part.index ∉ parts → t.i = s.i
  stack : Part.stack ∉ parts → t.stack = s.stack
  keyAwait : Part.keyAwait ∉ parts → t.keyAwait = s.keyAwait
  memory : Part.memory ∉ parts → ∀ a, t.memRead a = s.memRead a
  video : Part.video ∉ parts → ∀ x y, t.pixelRead x y = s.pixelRead x y
  delay : Part.delay ∉ parts → t.dt = s.dt
  sound : Part.sound ∉ parts → t.st = s.st
  draws : Part.draws ∉ parts → t.draws = s.draws
  keys : ∀ k, t.keyRead k = s.keyRead k
  params : t.params = s.params

/-- Two states in which the CPU state is the same and the bus contract's reads answer alike (R61). ST is left out: the
contract has no sound-counter read (R58). -/
structure SameAnswers (s t : State) : Prop where
  regs : ∀ r, s.reg r = t.reg r
  pc : s.pc = t.pc
  index : s.i = t.i
  stack : s.stack = t.stack
  keyAwait : s.keyAwait = t.keyAwait
  memory : ∀ a, s.memRead a = t.memRead a
  video : ∀ x y, s.pixelRead x y = t.pixelRead x y
  keys : ∀ k, s.keyRead k = t.keyRead k
  delay : s.dt = t.dt
  draws : s.draws = t.draws
  params : s.params = t.params

/-! ## Stores behind the bus contract (R61) -/

/-- Two engines, each beside a store of its own kind, with the same CPU state and stores that answer alike. -/
structure Alike {σ τ : Type} (B : Bus σ) (C : Bus τ) (s : Sys σ) (t : Sys τ) : Prop where
  cpu : s.cpu = t.cpu
  answers : B.answers s.store = C.answers t.store

/-- Two answers of the engine that go on to related machines, or that are the same model fault at the same address with
related machines left. -/
def CpuResult.Matches {M N : Type} (R : M → N → Prop) (a : CpuResult M) (b : CpuResult N) : Prop :=
  match a, b with
  | .next s, .next t => R s t
  | .fault r x s, .fault r' x' t => r = r' ∧ x = x' ∧ R s t
  | .next _, .fault _ _ _ => False
  | .fault _ _ _, .next _ => False

/-! ## The spec's tables -/

/-- The general registers an instruction reads (R22). -/
def regsRead : Instr → List RegIdx
  | .seImm x _ | .sneImm x _ | .addImm x _ => [x]
  | .seReg x y | .sneReg x y => [x, y]
  | .ldReg _ y | .shr _ y | .shl _ y => [y]
  | .orReg x y | .andReg x y | .xorReg x y | .addReg x y | .subReg x y | .subn x y => [x, y]
  | .jpV0 _ => [0]
  | .drw x y _ => [x, y]
  | .skp x | .sknp x | .ldDtVx x | .ldStVx x | .addI x | .ldF x | .ldB x => [x]
  | .ldMemVx x => (List.finRange 16).filter (· ≤ x)
  | .cls | .ret | .sys _ | .jp _ | .call _ | .ldImm _ _ | .ldI _ | .rnd _ _ => []
  | .ldVxDt _ | .ldVxK _ | .ldVxMem _ => []

/-- The general registers an instruction writes in its own step (R22; FX0A's register is written by the key poll). -/
def regsWritten : Instr → List RegIdx
  | .ldImm x _ | .addImm x _ | .ldReg x _ | .orReg x _ | .andReg x _ | .xorReg x _ | .rnd x _ | .ldVxDt x => [x]
  | .addReg x _ | .subReg x _ | .subn x _ | .shr x _ | .shl x _ => [x, VF]
  | .drw _ _ _ => [VF]
  | .ldVxMem x => (List.finRange 16).filter (· ≤ x)
  | .cls | .ret | .sys _ | .jp _ | .call _ | .seImm _ _ | .sneImm _ _ | .seReg _ _ | .sneReg _ _ => []
  | .ldI _ | .jpV0 _ | .skp _ | .sknp _ | .ldVxK _ | .ldDtVx _ | .ldStVx _ => []
  | .addI _ | .ldF _ | .ldB _ | .ldMemVx _ => []

/-- The parts of the state, other than the general registers, that an instruction can change. -/
def partsWritten : Instr → List Part
  | .cls | .drw _ _ _ => [.video]
  | .ret | .call _ => [.pc, .stack]
  | .jp _ | .jpV0 _ | .seImm _ _ | .sneImm _ _ | .seReg _ _ | .sneReg _ _ => [.pc]
  | .skp _ | .sknp _ => [.pc, .draws]
  | .rnd _ _ => [.draws]
  | .ldI _ | .addI _ | .ldF _ | .ldVxMem _ => [.index]
  | .ldB _ => [.memory]
  | .ldMemVx _ => [.memory, .index]
  | .ldDtVx _ => [.delay]
  | .ldStVx _ => [.sound]
  | .ldVxK _ => [.keyAwait]
  | .sys _ | .ldImm _ _ | .addImm _ _ | .ldReg _ _ | .orReg _ _ | .andReg _ _ | .xorReg _ _ => []
  | .addReg _ _ | .subReg _ _ | .shr _ _ | .subn _ _ | .shl _ _ | .ldVxDt _ => []

/-- What the key test of a register value yields where it is no model fault (R252). -/
def keyHeld (s : State) (k : Byte) : Bool :=
  if k.toNat < 16 then s.keyRead (Fin.ofNat 16 k.toNat)
  else match s.params.keyOorPolicy with
    | .draw => Config.freeBit s.draws
    | .mask => s.keyRead (Fin.ofNat 16 k.toNat)
    | .notPressed | .fault => false

/-- PC after the step that fetches instruction i in state s (R25), p being the address after the instruction. -/
def pcAfter (i : Instr) (s : State) : Addr :=
  let p := s.pc + 2#12
  match i with
  | .jp nnn | .call nnn => nnn
  | .ret => s.stack.headD p
  | .jpV0 nnn => BitVec.ofNat 12 (nnn.toNat + (s.reg 0).toNat)
  | .seImm x nn => if s.reg x = nn then p + 2#12 else p
  | .sneImm x nn => if s.reg x = nn then p else p + 2#12
  | .seReg x y => if s.reg x = s.reg y then p + 2#12 else p
  | .sneReg x y => if s.reg x = s.reg y then p else p + 2#12
  | .skp x => if keyHeld s (s.reg x) then p + 2#12 else p
  | .sknp x => if keyHeld s (s.reg x) then p else p + 2#12
  | .cls | .sys _ | .ldImm _ _ | .addImm _ _ | .ldReg _ _ | .orReg _ _ | .andReg _ _ | .xorReg _ _ => p
  | .addReg _ _ | .subReg _ _ | .shr _ _ | .subn _ _ | .shl _ _ | .ldI _ | .rnd _ _ | .drw _ _ _ => p
  | .ldVxDt _ | .ldVxK _ | .ldDtVx _ | .ldStVx _ | .addI _ | .ldF _ | .ldB _ | .ldMemVx _ | .ldVxMem _ => p

/-- The sprite of n rows at I with its origin at (vx, vy) has a set bit on the pixel (x, y) (R232, R233). -/
def SpriteCovers (s : State) (vx vy n x y : Nat) : Prop :=
  ∃ row col, row < n ∧ col < 8 ∧ (s.memRead (s.dataAddr row)).getLsbD (7 - col) = true ∧
    x = (vx + col) % 64 ∧ y = (vy + row) % 32

end Sys2Proof.Machine
end

