-- ==== Sys2Proof/Certificates/Slice0/Obligations.lean ====
section
/-! DEFINITION. The statements for the provers. `s` is the state before; a per-instruction statement is about `exec`,
which runs after the fetch, so there `s.pc` is already the address after the instruction (R113). `Frame` also says that the
model's own fields stay (log 7). `s.mem.wf` is the model's canonical form of MEM (log 24), which rules out no contents. -/

open Sys2Proof Sys2Proof.Machine

/-! ## Encoding -/

/-- Words written out from the spec's patterns (R83, and the vectors of 95_test_vectors.md) decode to the
instructions they stand for. That the last is unmatched is the spec's decision D8. -/
def Obligations.SpecWordsDecodeAsWritten : Prop :=
  decode 0b0000000011100000#16 = .ok .cls ∧
  decode 0b0000000011101110#16 = .ok .ret ∧
  decode 0b0000000100100011#16 = .ok (.sys 0x123#12) ∧
  decode 0b0010001100000000#16 = .ok (.call 0x300#12) ∧
  decode 0b0011001101000010#16 = .ok (.seImm 3 0x42#8) ∧
  decode 0b0101000100100000#16 = .ok (.seReg 1 2) ∧
  decode 0b1000111100010100#16 = .ok (.addReg 15 1) ∧
  decode 0b1000000000011110#16 = .ok (.shl 0 1) ∧
  decode 0b1100001100001111#16 = .ok (.rnd 3 0x0F#8) ∧
  decode 0b1101000100100101#16 = .ok (.drw 1 2 5#4) ∧
  decode 0b1110001010011110#16 = .ok (.skp 2) ∧
  decode 0b1111001001010101#16 = .ok (.ldMemVx 2) ∧
  decode 0b0101000100100001#16 = .error .word5xyn

/-- Every well-formed instruction is decoded from its own word, and from that word's two bytes in memory order. That 00E0
and 00EE win over 0NNN is the spec's decision D8 (log 11), here and in the next. -/
def Obligations.DecodeOfEncodeGivesInstruction : Prop :=
  ∀ i : Instr, i.wellFormed = true →
    decode (encode i) = .ok i ∧ decodeBytes (opcodeHi (encode i)) (opcodeLo (encode i)) = .ok i

/-- A word that decodes is the word of the well-formed instruction it decodes to, so no two words share an
instruction. -/
def Obligations.EncodeOfDecodeGivesWord : Prop :=
  ∀ (w : Opcode) (i : Instr), decode w = .ok i → encode i = w ∧ i.wellFormed = true

/-- The unmatched words are exactly those of the five spaces of R86 (derived there from R85 and D8), by arithmetic on the
word. -/
def Obligations.UnmatchedWordsAreTheFiveSpaces : Prop :=
  ∀ w : Opcode,
    (decode w = .error .word5xyn ↔ w.toNat / 4096 = 5 ∧ w.toNat % 16 ≠ 0) ∧
    (decode w = .error .word9xyn ↔ w.toNat / 4096 = 9 ∧ w.toNat % 16 ≠ 0) ∧
    (decode w = .error .word8xyn ↔ w.toNat / 4096 = 8 ∧ w.toNat % 16 ∈ [8, 9, 10, 11, 12, 13, 15]) ∧
    (decode w = .error .wordExnn ↔ w.toNat / 4096 = 14 ∧ w.toNat % 256 ∉ [0x9E, 0xA1]) ∧
    (decode w = .error .wordFxnn ↔
      w.toNat / 4096 = 15 ∧ w.toNat % 256 ∉ [0x07, 0x0A, 0x15, 0x18, 0x1E, 0x29, 0x33, 0x55, 0x65])

/-! ## The step -/

/-- R112: the opcode is the byte at PC in bits 15:8 and the byte at PC + 1 (mod 0x1000) in bits 7:0, and the fetch
leaves PC 2 further mod 0x1000. -/
def Obligations.FetchIsBigEndianAndWraps : Prop :=
  ∀ s : State,
    s.fetchWord.toNat = (s.memRead s.pc).toNat * 256 + (s.memRead (BitVec.ofNat 12 (s.pc.toNat + 1))).toNat ∧
    s.afterFetch.pc.toNat = (s.pc.toNat + 2) % 0x1000 ∧
    Frame [.pc] [] s s.afterFetch

/-- While no key is waited for, a step whose two bytes at PC are an instruction's word is that instruction's meaning
with PC moved past it (R110, R113). -/
def Obligations.StepRunsTheDecodedInstruction : Prop :=
  ∀ (s : State) (i : Instr), s.keyAwait = none →
    decodeBytes (s.memRead s.pc) (s.memRead (s.pc + 1#12)) = .ok i → step s = exec i (s.setPc (s.pc + 2#12))

/-- R86: a step on an unmatched word changes nothing but PC, which is moved past it. Which words are unmatched is the
spec's decision D8 (log 11). -/
def Obligations.UnmatchedWordIsNoOp : Prop :=
  ∀ (s : State) (e : Unmatched), s.keyAwait = none →
    decodeBytes (s.memRead s.pc) (s.memRead (s.pc + 1#12)) = .error e → step s = .next (s.setPc (s.pc + 2#12))

/-- R111: while a register is waited for, a step with no key pressed changes nothing; else it stores the lowest
pressed key there and ends the wait, and does nothing else. -/
def Obligations.KeyPollTakesLowestPressedKey : Prop :=
  ∀ (s : State) (r : RegIdx), s.keyAwait = some r →
    ((∀ k, s.keyRead k = false) → step s = .next s) ∧
    (∀ k, s.keyRead k = true → (∀ j, j < k → s.keyRead j = false) →
      ∃ t, step s = .next t ∧ (t.reg r).toNat = k ∧ t.keyAwait = none ∧ Frame [.keyAwait] [r] s t)

/-- R116, R280: under parameters with no model fault a step is enabled in every state. -/
def Obligations.StepIsAlwaysEnabled : Prop :=
  ∀ s : State, FaultFree s.params → ∃ t, step s = .next t

/-- R282: exactly when a step is a model fault, which, at which address, and with what state left; and no step is
refused, since every instruction has its meaning. Both faults exist by the spec's decisions D9 and D11. -/
def Obligations.ModelFaultsAreExactlyTheTwo : Prop :=
  (∀ (s : State) (r : Refusal), step s ≠ .refused r) ∧
  ∀ (s : State) (f : Fault), step s = .fault f ↔
    s.keyAwait = none ∧
    ((∃ nnn c, decode s.fetchWord = .ok (.call nnn) ∧ s.params.stackCapacity = some c ∧ c ≤ s.stack.length ∧
        f = .stackOverflow s.pc (s.setPc (s.pc + 2#12))) ∨
     (∃ x, (decode s.fetchWord = .ok (.skp x) ∨ decode s.fetchWord = .ok (.sknp x)) ∧ 15 < (s.reg x).toNat ∧
        s.params.keyOorPolicy = .fault ∧ f = .keyIndexOutOfRange s.pc (s.setPc (s.pc + 2#12))))

/-- R25: PC after a step. The BNNN row is the spec's decision D7 (log 12). In the SKP and SKNP rows an index above 15 goes
by KEY_OOR_POLICY, the spec's decision D11; under `draw` it is `Config.freeBit` of the draw counter, the model's form of the
free boolean (log 5), and the statement holds whatever it is. -/
def Obligations.PcAfterStepFollowsTheTable : Prop :=
  ∀ s t : State, step s = .next t →
    (∀ r, s.keyAwait = some r → t.pc = s.pc) ∧
    (s.keyAwait = none → ∀ i, decode s.fetchWord = .ok i → t.pc = pcAfter i s) ∧
    (s.keyAwait = none → ∀ e, decode s.fetchWord = .error e → t.pc = s.pc + 2#12)

/-! ## Invariants -/

/-- The construction state meets the invariant; the canonical form is the model's (log 24). -/
def Obligations.ResetMeetsInvariant : Prop := CoreInv State.reset

/-- From every state with memory canonical (the model's form, log 24) and the stack within its capacity (the spec's open
parameter, D9), a step keeps both, and so does every other operation of the host; and every accepted construction has
both. -/
def Obligations.StepAndEveryOperationKeepInvariant : Prop :=
  (∀ s t : State, CoreInv s → step s = .next t → CoreInv t) ∧
  (∀ (o : HostOp) (s t : State), CoreInv s → applyOp o s = .next t → CoreInv t) ∧
  (∀ (p : Params) (fontBytes : Vector Byte 80) (memInit : Vector Byte 4096) (image : List Byte) (s : State),
    State.construct p fontBytes memInit image = some s → CoreInv s)

/-- Every state of every session meets the invariant: any construction, any operations of the host in any order. The
canonical form is the model's (log 24). -/
def Obligations.ReachableStatesMeetInvariant : Prop :=
  ∀ s : State, Reachable s → CoreInv s

/-- No run of any operations in any order meets a fault or a refusal under parameters with no model fault, and the
parameters, the model's own field (log 7), stay. -/
def Obligations.RunsNeverStopAtFaultFreeParameters : Prop :=
  ∀ (ops : List HostOp) (s : State), FaultFree s.params → ∃ t, runOps ops s = .next t ∧ t.params = s.params

/-! ## Whole-machine rules -/

/-- R22: an instruction writes no general register but those of the table, and depends on none but those of the
table: with another value in a register it does not read, it does the same at the same draw. The two executions compared
start at the same draw counter, so RND, and SKP and SKNP under `draw`, get the same free value in both: that is the model's
form (log 4, log 5), and no claim that the hardware's draws repeat. -/
def Obligations.RegistersAccessedOnlyAsTabled : Prop :=
  ∀ (i : Instr) (s t : State) (r : RegIdx), exec i s = .next t →
    (r ∉ regsWritten i → t.reg r = s.reg r) ∧
    (r ∉ regsRead i → ∀ b : Byte,
      (r ∈ regsWritten i → exec i (s.setReg r b) = .next t) ∧
      (r ∉ regsWritten i → exec i (s.setReg r b) = .next (t.setReg r b)))

/-- R33, R34, R35, R36 (and MEM, R32): which operations can change each part of the peripheral store. That the parameters
never change is the model's (log 7). -/
def Obligations.StoreChangesOnlyByItsWriters : Prop :=
  ∀ (o : HostOp) (s t : State), applyOp o s = .next t →
    let runs (i : Instr) := o = .step ∧ s.keyAwait = none ∧ decode s.fetchWord = .ok i
    (∀ x y, t.pixelRead x y ≠ s.pixelRead x y → runs .cls ∨ ∃ a b n, runs (.drw a b n)) ∧
    (∀ k, t.keyRead k ≠ s.keyRead k → ∃ down, o = .setKey k down) ∧
    (t.dt ≠ s.dt → o = .delayTick ∨ ∃ x, runs (.ldDtVx x)) ∧
    (t.st ≠ s.st → o = .soundTick ∨ ∃ x, runs (.ldStVx x)) ∧
    (∀ a, t.memRead a ≠ s.memRead a → ∃ x, runs (.ldB x) ∨ runs (.ldMemVx x)) ∧
    t.params = s.params

/-- R20, R23, R27, R28, R29: which operations can change each general register, PC, I, STACK and KEY_AWAIT; and which use
up a draw, the model's counter (log 4, log 5, log 7). -/
def Obligations.CpuStateChangesOnlyByItsWriters : Prop :=
  ∀ (o : HostOp) (s t : State), applyOp o s = .next t →
    let runs (i : Instr) := o = .step ∧ s.keyAwait = none ∧ decode s.fetchWord = .ok i
    (∀ r, t.reg r ≠ s.reg r → o = .cpuReset ∨ (∃ i, runs i ∧ r ∈ regsWritten i) ∨
      (o = .step ∧ s.keyAwait = some r ∧ ∃ k, s.keyRead k = true)) ∧
    (t.pc ≠ s.pc → o = .cpuReset ∨ (o = .step ∧ s.keyAwait = none)) ∧
    (t.i ≠ s.i → o = .cpuReset ∨
      ∃ n x, runs (.ldI n) ∨ runs (.addI x) ∨ runs (.ldF x) ∨ runs (.ldMemVx x) ∨ runs (.ldVxMem x)) ∧
    (t.stack ≠ s.stack → o = .cpuReset ∨ runs .ret ∨ ∃ n, runs (.call n)) ∧
    (t.keyAwait ≠ s.keyAwait → o = .cpuReset ∨ (∃ x, runs (.ldVxK x)) ∨
      (o = .step ∧ (∃ r, s.keyAwait = some r) ∧ (∃ k, s.keyRead k = true) ∧ t.keyAwait = none)) ∧
    (t.draws ≠ s.draws → t.draws = s.draws + 1 ∧ ∃ x n, runs (.rnd x n) ∨
      ((runs (.skp x) ∨ runs (.sknp x)) ∧ 15 < (s.reg x).toNat ∧ s.params.keyOorPolicy = .draw))

/-- R61: beside any two stores, of any kinds, that implement the bus contract lawfully (R54, R57, R58, R59) and answer
alike, equal CPUs step alike: both go on, to equal CPUs and stores that again answer alike, or both meet the same model
fault. So the step depends on what the operations answer and never on which store implements them. The last clause is the
same of two of the model's own states; ST, which the contract does not read, has no influence (R36). The draws and the
parameters, the model's own fields, agree too (log 7), so both steps get the same free value (log 4, log 5). -/
def Obligations.StepDependsOnlyOnBusAnswers : Prop :=
  (∀ (σ τ : Type) (B : Bus σ) (C : Bus τ) (okB : σ → Prop) (okC : τ → Prop), B.Lawful okB → C.Lawful okC →
    ∀ (s : Sys σ) (t : Sys τ), okB s.store → okC t.store → Alike B C s t →
      (B.step s).Matches (fun s' t' => okB s'.store ∧ okC t'.store ∧ Alike B C s' t') (C.step t)) ∧
  (∀ s s' t : State, s.mem.wf = true → s'.mem.wf = true → SameAnswers s s' → step s = .next t →
    ∃ t', step s' = .next t' ∧ SameAnswers t t')

/-! ## Control transfer (41_control.md) -/

/-- R131: RET. -/
def Obligations.RetPopsOrDoesNothing : Prop :=
  decode 0x00EE#16 = .ok .ret ∧
  ∀ s : State,
    (s.stack = [] → exec .ret s = .next s) ∧
    (∀ a rest, s.stack = a :: rest →
      ∃ t, exec .ret s = .next t ∧ t.pc = a ∧ t.stack = rest ∧ Frame [.pc, .stack] [] s t)

/-- R132, R84: 0NNN, the words 0x00E0 and 0x00EE apart, is a no-op. -/
def Obligations.SysIsNoOp : Prop :=
  ∀ (nnn : Addr) (s : State),
    (nnn ≠ 0x0E0#12 → nnn ≠ 0x0EE#12 → decode (mkNNN 0x0#4 nnn) = .ok (.sys nnn)) ∧ exec (.sys nnn) s = .next s

/-- R133: JP. -/
def Obligations.JpSetsPc : Prop :=
  ∀ (nnn : Addr) (s : State), decode (mkNNN 0x1#4 nnn) = .ok (.jp nnn) ∧
    ∃ t, exec (.jp nnn) s = .next t ∧ t.pc = nnn ∧ Frame [.pc] [] s t

/-- R134: CALL pushes the address after it and jumps; onto a full stack of finite capacity it is the model fault
(the spec's decision D9). -/
def Obligations.CallPushesReturnAddress : Prop :=
  ∀ (nnn : Addr) (s : State), decode (mkNNN 0x2#4 nnn) = .ok (.call nnn) ∧
    ((∀ c, s.params.stackCapacity = some c → s.stack.length < c) →
      ∃ t, exec (.call nnn) s = .next t ∧ t.pc = nnn ∧ t.stack = s.pc :: s.stack ∧ Frame [.pc, .stack] [] s t) ∧
    (∀ c, s.params.stackCapacity = some c → c ≤ s.stack.length →
      exec (.call nnn) s = .fault (.stackOverflow (s.pc - 2#12) s))

/-- R135, R136, R130: SE and SNE with an immediate. -/
def Obligations.SkipOnImmediateCompare : Prop :=
  ∀ (x : RegIdx) (nn : Byte) (s : State),
    decode (mkXNN 0x3#4 x nn) = .ok (.seImm x nn) ∧ decode (mkXNN 0x4#4 x nn) = .ok (.sneImm x nn) ∧
    (∃ t, exec (.seImm x nn) s = .next t ∧ Frame [.pc] [] s t ∧
      t.pc.toNat = (s.pc.toNat + if (s.reg x).toNat = nn.toNat then 2 else 0) % 0x1000) ∧
    (∃ t, exec (.sneImm x nn) s = .next t ∧ Frame [.pc] [] s t ∧
      t.pc.toNat = (s.pc.toNat + if (s.reg x).toNat = nn.toNat then 0 else 2) % 0x1000)

/-- R137, R138, R130: SE and SNE of two registers; with another low nibble the word is unmatched (the spec's
decision D8). -/
def Obligations.SkipOnRegisterCompare : Prop :=
  ∀ (x y : RegIdx) (s : State),
    decode (mkXYN 0x5#4 x y 0x0#4) = .ok (.seReg x y) ∧ decode (mkXYN 0x9#4 x y 0x0#4) = .ok (.sneReg x y) ∧
    (∀ n, n ≠ 0x0#4 →
      decode (mkXYN 0x5#4 x y n) = .error .word5xyn ∧ decode (mkXYN 0x9#4 x y n) = .error .word9xyn) ∧
    (∃ t, exec (.seReg x y) s = .next t ∧ Frame [.pc] [] s t ∧
      t.pc.toNat = (s.pc.toNat + if (s.reg x).toNat = (s.reg y).toNat then 2 else 0) % 0x1000) ∧
    (∃ t, exec (.sneReg x y) s = .next t ∧ Frame [.pc] [] s t ∧
      t.pc.toNat = (s.pc.toNat + if (s.reg x).toNat = (s.reg y).toNat then 0 else 2) % 0x1000)

/-- R139: JP V0 adds V[0], whatever NNN's high nibble, and wraps mod 0x1000 (the spec's decision D7). -/
def Obligations.JpV0AddsRegisterZero : Prop :=
  ∀ (nnn : Addr) (s : State), decode (mkNNN 0xB#4 nnn) = .ok (.jpV0 nnn) ∧
    ∃ t, exec (.jpV0 nnn) s = .next t ∧ t.pc.toNat = (nnn.toNat + (s.reg 0).toNat) % 0x1000 ∧ Frame [.pc] [] s t

/-! ## Arithmetic and logic (42_alu.md) -/

/-- R160: LD Vx, nn. -/
def Obligations.LdImmWritesImmediate : Prop :=
  ∀ (x : RegIdx) (nn : Byte) (s : State), decode (mkXNN 0x6#4 x nn) = .ok (.ldImm x nn) ∧
    ∃ t, exec (.ldImm x nn) s = .next t ∧ t.reg x = nn ∧ Frame [] [x] s t

/-- R161: ADD Vx, nn is modulo 256 and touches no flag. -/
def Obligations.AddImmWrapsWithoutFlag : Prop :=
  ∀ (x : RegIdx) (nn : Byte) (s : State), decode (mkXNN 0x7#4 x nn) = .ok (.addImm x nn) ∧
    ∃ t, exec (.addImm x nn) s = .next t ∧ (t.reg x).toNat = ((s.reg x).toNat + nn.toNat) % 256 ∧ Frame [] [x] s t

/-- R162: LD Vx, Vy. -/
def Obligations.LdRegCopiesRegister : Prop :=
  ∀ (x y : RegIdx) (s : State), decode (mkXYN 0x8#4 x y 0x0#4) = .ok (.ldReg x y) ∧
    ∃ t, exec (.ldReg x y) s = .next t ∧ t.reg x = s.reg y ∧ Frame [] [x] s t

/-- R163, R164, R165: OR, AND and XOR, bit by bit; VF is not reset. -/
def Obligations.LogicOpsActBitByBit : Prop :=
  ∀ (x y : RegIdx) (s : State),
    decode (mkXYN 0x8#4 x y 0x1#4) = .ok (.orReg x y) ∧ decode (mkXYN 0x8#4 x y 0x2#4) = .ok (.andReg x y) ∧
    decode (mkXYN 0x8#4 x y 0x3#4) = .ok (.xorReg x y) ∧
    (∃ t, exec (.orReg x y) s = .next t ∧ Frame [] [x] s t ∧
      ∀ k, (t.reg x).getLsbD k = ((s.reg x).getLsbD k || (s.reg y).getLsbD k)) ∧
    (∃ t, exec (.andReg x y) s = .next t ∧ Frame [] [x] s t ∧
      ∀ k, (t.reg x).getLsbD k = ((s.reg x).getLsbD k && (s.reg y).getLsbD k)) ∧
    (∃ t, exec (.xorReg x y) s = .next t ∧ Frame [] [x] s t ∧
      ∀ k, (t.reg x).getLsbD k = ((s.reg x).getLsbD k ^^ (s.reg y).getLsbD k))

/-- R166: ADD Vx, Vy; VF is the carry and is written last. -/
def Obligations.AddRegSetsCarryLast : Prop :=
  ∀ (x y : RegIdx) (s : State), decode (mkXYN 0x8#4 x y 0x4#4) = .ok (.addReg x y) ∧
    ∃ t, exec (.addReg x y) s = .next t ∧ Frame [] [x, VF] s t ∧
      (x ≠ VF → (t.reg x).toNat = ((s.reg x).toNat + (s.reg y).toNat) % 256) ∧
      (t.reg VF).toNat = if (s.reg x).toNat + (s.reg y).toNat > 255 then 1 else 0

/-- R167, R169: SUB and SUBN; VF is NOT borrow and is written last. -/
def Obligations.SubtractionsSetNotBorrowLast : Prop :=
  ∀ (x y : RegIdx) (s : State),
    decode (mkXYN 0x8#4 x y 0x5#4) = .ok (.subReg x y) ∧ decode (mkXYN 0x8#4 x y 0x7#4) = .ok (.subn x y) ∧
    (∃ t, exec (.subReg x y) s = .next t ∧ Frame [] [x, VF] s t ∧
      (x ≠ VF → (t.reg x).toNat = ((s.reg x).toNat + 256 - (s.reg y).toNat) % 256) ∧
      (t.reg VF).toNat = if (s.reg x).toNat < (s.reg y).toNat then 0 else 1) ∧
    (∃ t, exec (.subn x y) s = .next t ∧ Frame [] [x, VF] s t ∧
      (x ≠ VF → (t.reg x).toNat = ((s.reg y).toNat + 256 - (s.reg x).toNat) % 256) ∧
      (t.reg VF).toNat = if (s.reg y).toNat < (s.reg x).toNat then 0 else 1)

/-- R168, R170: SHR and SHL shift V[Y] into V[X]; VF is the bit shifted out and is written last. With X = Y the bit
is of the old value (the spec's decision D3). -/
def Obligations.ShiftsTakeVyAndSetLostBitLast : Prop :=
  ∀ (x y : RegIdx) (s : State),
    decode (mkXYN 0x8#4 x y 0x6#4) = .ok (.shr x y) ∧ decode (mkXYN 0x8#4 x y 0xE#4) = .ok (.shl x y) ∧
    (∃ t, exec (.shr x y) s = .next t ∧ Frame [] [x, VF] s t ∧
      (x ≠ VF → (t.reg x).toNat = (s.reg y).toNat / 2) ∧ (t.reg VF).toNat = (s.reg y).toNat % 2) ∧
    (∃ t, exec (.shl x y) s = .next t ∧ Frame [] [x, VF] s t ∧
      (x ≠ VF → (t.reg x).toNat = (s.reg y).toNat * 2 % 256) ∧ (t.reg VF).toNat = (s.reg y).toNat / 128)

/-- R171: RND masks a fresh free byte, and uses up one draw. Holds whatever the free byte is; that it is the free value
of the draw counter is the model's form (log 4). -/
def Obligations.RndMasksAFreshByte : Prop :=
  ∀ (x : RegIdx) (nn : Byte) (s : State), decode (mkXNN 0xC#4 x nn) = .ok (.rnd x nn) ∧
    ∃ t, exec (.rnd x nn) s = .next t ∧ Frame [.draws] [x] s t ∧ t.draws = s.draws + 1 ∧
      ∀ k, (t.reg x).getLsbD k = ((Config.freeByte s.draws).getLsbD k && nn.getLsbD k)

/-! ## Index register and memory (43_index_memory.md) -/

/-- R54, R53: in a canonical memory, at any addresses: a byte written is read back and no other byte changes; a second
write to an address replaces the first; writes to two addresses commute; storing what is there changes nothing. The last
three are equalities of states, which hold because the model's canonical form (DESIGN CHOICE, log 24) makes equal memories
equal data. That no address is protected is the spec's decision D16 (log 14). -/
def Obligations.MemoryWritesObeyTheStoreLaws : Prop :=
  ∀ (s : State) (a b : Addr) (u w : Byte), s.mem.wf = true →
    (s.memWrite a w).memRead b = (if b = a then w else s.memRead b) ∧
    (s.memWrite a u).memWrite a w = s.memWrite a w ∧
    (a ≠ b → (s.memWrite a u).memWrite b w = (s.memWrite b w).memWrite a u) ∧
    s.memWrite a (s.memRead a) = s

/-- R201: LD I, nnn. -/
def Obligations.LdISetsIndex : Prop :=
  ∀ (nnn : Addr) (s : State), decode (mkNNN 0xA#4 nnn) = .ok (.ldI nnn) ∧
    ∃ t, exec (.ldI nnn) s = .next t ∧ t.i = nnn ∧ Frame [.index] [] s t

/-- R202: ADD I, Vx is masked to 12 bits and writes no flag. -/
def Obligations.AddIWrapsWithoutFlag : Prop :=
  ∀ (x : RegIdx) (s : State), decode (mkXNN 0xF#4 x 0x1E#8) = .ok (.addI x) ∧
    ∃ t, exec (.addI x) s = .next t ∧ t.i.toNat = (s.i.toNat + (s.reg x).toNat) % 0x1000 ∧ Frame [.index] [] s t

/-- R203: LD F, Vx points I at five times the whole byte. -/
def Obligations.LdFPointsAtGlyph : Prop :=
  ∀ (x : RegIdx) (s : State), decode (mkXNN 0xF#4 x 0x29#8) = .ok (.ldF x) ∧
    ∃ t, exec (.ldF x) s = .next t ∧ t.i.toNat = (s.reg x).toNat * 5 ∧ Frame [.index] [] s t

/-- R204: LD B, Vx stores the three decimal digits at I, I + 1, I + 2 (mod 0x1000) and nothing else.
The wrap is the spec's decision D6, here and in the next three. -/
def Obligations.LdBStoresDecimalDigits : Prop :=
  ∀ (x : RegIdx) (s : State), decode (mkXNN 0xF#4 x 0x33#8) = .ok (.ldB x) ∧
    (s.mem.wf = true → ∃ t, exec (.ldB x) s = .next t ∧
      (t.memRead (s.dataAddr 0)).toNat = (s.reg x).toNat / 100 ∧
      (t.memRead (s.dataAddr 1)).toNat = (s.reg x).toNat / 10 % 10 ∧
      (t.memRead (s.dataAddr 2)).toNat = (s.reg x).toNat % 10 ∧
      (∀ a, (∀ k, k < 3 → a ≠ s.dataAddr k) → t.memRead a = s.memRead a) ∧
      Frame [.memory] [] s t)

/-- R205: LD [I], Vx stores V[0]..V[X] at I.. (mod 0x1000) and nothing else, and moves I past them. -/
def Obligations.LdMemVxStoresRegisters : Prop :=
  ∀ (x : RegIdx) (s : State), decode (mkXNN 0xF#4 x 0x55#8) = .ok (.ldMemVx x) ∧
    (s.mem.wf = true → ∃ t, exec (.ldMemVx x) s = .next t ∧
      (∀ k : RegIdx, k ≤ x → t.memRead (s.dataAddr k) = s.reg k) ∧
      (∀ a, (∀ k : RegIdx, k ≤ x → a ≠ s.dataAddr k) → t.memRead a = s.memRead a) ∧
      t.i.toNat = (s.i.toNat + x + 1) % 0x1000 ∧
      Frame [.memory, .index] [] s t)

/-- R206: LD Vx, [I] loads V[0]..V[X] from I.. (mod 0x1000), changes no other register, and moves I past them. -/
def Obligations.LdVxMemLoadsRegisters : Prop :=
  ∀ (x : RegIdx) (s : State), decode (mkXNN 0xF#4 x 0x65#8) = .ok (.ldVxMem x) ∧
    ∃ t, exec (.ldVxMem x) s = .next t ∧
      (∀ k : RegIdx, k ≤ x → t.reg k = s.memRead (s.dataAddr k)) ∧
      t.i.toNat = (s.i.toNat + x + 1) % 0x1000 ∧
      Frame [.index] ((List.finRange 16).filter (· ≤ x)) s t

/-- The law quoted in R206: FX55, then FX65 from the same base with anything in the registers, restores V[0]..V[X], and
I advances by X + 1 each time. -/
def Obligations.StoreThenLoadRestoresRegisters : Prop :=
  ∀ (x : RegIdx) (s : State) (junk : Vector Byte 16), s.mem.wf = true →
    ∃ t u, exec (.ldMemVx x) s = .next t ∧ exec (.ldVxMem x) { t with i := s.i, v := junk } = .next u ∧
      (∀ k : RegIdx, k ≤ x → u.reg k = s.reg k) ∧ (∀ k : RegIdx, x < k → u.reg k = junk[k]) ∧
      t.i = s.dataAddr (x + 1) ∧ u.i = s.dataAddr (x + 1)

/-! ## Display (44_display.md) -/

/-- R59: pixel coordinates wrap, x mod 64 and y mod 32; one write changes one pixel. -/
def Obligations.PixelAccessWrapsAndIsLocal : Prop :=
  ∀ (s : State) (x y px py : Nat) (b : Bool),
    s.pixelRead x y = s.pixelRead (x % 64) (y % 32) ∧
    (s.pixelWrite px py b).pixelRead x y = if x % 64 = px % 64 ∧ y % 32 = py % 32 then b else s.pixelRead x y

/-- R231: CLS. -/
def Obligations.ClsClearsEveryPixel : Prop :=
  decode 0x00E0#16 = .ok .cls ∧
  ∀ s : State, ∃ t, exec .cls s = .next t ∧ (∀ x y, t.pixelRead x y = false) ∧ Frame [.video] [] s t

/-- DRW (R232) toggles exactly the pixels the sprite covers, each wrapping on its axis, and VF is 1 exactly when one of
them was set. That bit 7 is the leftmost column is general knowledge (R233, log 8); that the
coordinates are those before VF is reset is the spec's decision D4. -/
def Obligations.DrwTogglesCoveredPixels : Prop :=
  ∀ (x y : RegIdx) (n : Nibble) (s : State), decode (mkXYN 0xD#4 x y n) = .ok (.drw x y n) ∧
    ∃ t, exec (.drw x y n) s = .next t ∧ Frame [.video] [VF] s t ∧
      (∀ px py, px < 64 → py < 32 →
        (SpriteCovers s (s.reg x).toNat (s.reg y).toNat n.toNat px py → t.pixelRead px py = !s.pixelRead px py) ∧
        (¬SpriteCovers s (s.reg x).toNat (s.reg y).toNat n.toNat px py → t.pixelRead px py = s.pixelRead px py)) ∧
      ((∃ px py, SpriteCovers s (s.reg x).toNat (s.reg y).toNat n.toNat px py ∧ s.pixelRead px py = true) →
        t.reg VF = 1#8) ∧
      ((∀ px py, SpriteCovers s (s.reg x).toNat (s.reg y).toNat n.toNat px py → s.pixelRead px py = false) →
        t.reg VF = 0#8)

/-- R234: drawing the same sprite twice at the same place restores every pixel; from a cleared screen VF is 0 after the
first draw and 1 after the second if the sprite has a set bit; an all-zero sprite never collides. -/
def Obligations.DrawingTwiceRestoresThePixels : Prop :=
  ∀ (x y : RegIdx) (n : Nibble) (s : State), x ≠ VF → y ≠ VF →
    ∃ t u, exec (.drw x y n) s = .next t ∧ exec (.drw x y n) t = .next u ∧
      (∀ px py, u.pixelRead px py = s.pixelRead px py) ∧
      ((∀ px py, s.pixelRead px py = false) → t.reg VF = 0#8 ∧
        ((∃ row, row < n.toNat ∧ s.memRead (s.dataAddr row) ≠ 0#8) → u.reg VF = 1#8)) ∧
      ((∀ row, row < n.toNat → s.memRead (s.dataAddr row) = 0#8) → t.reg VF = 0#8 ∧ u.reg VF = 0#8)

/-! ## Keypad and timers (45_keypad_timers.md, 60_exceptions.md) -/

/-- R250, R251: SKP and SKNP of a key index 0..15. -/
def Obligations.KeySkipsTestTheKeyLevel : Prop :=
  ∀ (x : RegIdx) (s : State),
    decode (mkXNN 0xE#4 x 0x9E#8) = .ok (.skp x) ∧ decode (mkXNN 0xE#4 x 0xA1#8) = .ok (.sknp x) ∧
    (∀ k : KeyIdx, (s.reg x).toNat = k →
      (∃ t, exec (.skp x) s = .next t ∧ Frame [.pc] [] s t ∧
        t.pc.toNat = (s.pc.toNat + if s.keyRead k then 2 else 0) % 0x1000) ∧
      (∃ t, exec (.sknp x) s = .next t ∧ Frame [.pc] [] s t ∧
        t.pc.toNat = (s.pc.toNat + if s.keyRead k then 0 else 2) % 0x1000))

/-- R252: the key test of an index 16..255 under each KEY_OOR_POLICY. Under `draw` it holds whatever the free boolean
is; that it is the free value of the draw counter is the model's form (log 5). -/
def Obligations.KeySkipsOutOfRangeFollowThePolicy : Prop :=
  ∀ (x : RegIdx) (s : State), 15 < (s.reg x).toNat →
    (s.params.keyOorPolicy = .draw →
      (∃ t, exec (.skp x) s = .next t ∧ Frame [.pc, .draws] [] s t ∧ t.draws = s.draws + 1 ∧
        t.pc = if Config.freeBit s.draws then s.pc + 2#12 else s.pc) ∧
      (∃ t, exec (.sknp x) s = .next t ∧ Frame [.pc, .draws] [] s t ∧ t.draws = s.draws + 1 ∧
        t.pc = if Config.freeBit s.draws then s.pc else s.pc + 2#12)) ∧
    (s.params.keyOorPolicy = .mask → ∀ k : KeyIdx, (s.reg x).toNat % 16 = k →
      exec (.skp x) s = .next (if s.keyRead k then s.setPc (s.pc + 2#12) else s) ∧
      exec (.sknp x) s = .next (if s.keyRead k then s else s.setPc (s.pc + 2#12))) ∧
    (s.params.keyOorPolicy = .notPressed →
      exec (.skp x) s = .next s ∧ exec (.sknp x) s = .next (s.setPc (s.pc + 2#12))) ∧
    (s.params.keyOorPolicy = .fault →
      exec (.skp x) s = .fault (.keyIndexOutOfRange (s.pc - 2#12) s) ∧
      exec (.sknp x) s = .fault (.keyIndexOutOfRange (s.pc - 2#12) s))

/-- R253: LD Vx, DT. -/
def Obligations.LdVxDtReadsDelayCounter : Prop :=
  ∀ (x : RegIdx) (s : State), decode (mkXNN 0xF#4 x 0x07#8) = .ok (.ldVxDt x) ∧
    ∃ t, exec (.ldVxDt x) s = .next t ∧ t.reg x = s.dt ∧ Frame [] [x] s t

/-- R254: LD Vx, K enters the key wait and does nothing else: no register is written, no key is read. -/
def Obligations.LdVxKEntersKeyWait : Prop :=
  ∀ (x : RegIdx) (s : State), decode (mkXNN 0xF#4 x 0x0A#8) = .ok (.ldVxK x) ∧
    ∃ t, exec (.ldVxK x) s = .next t ∧ t.keyAwait = some x ∧ Frame [.keyAwait] [] s t

/-- R255, R256: LD DT, Vx and LD ST, Vx. -/
def Obligations.TimerLoadsWriteTheirCounter : Prop :=
  ∀ (x : RegIdx) (s : State),
    decode (mkXNN 0xF#4 x 0x15#8) = .ok (.ldDtVx x) ∧ decode (mkXNN 0xF#4 x 0x18#8) = .ok (.ldStVx x) ∧
    (∃ t, exec (.ldDtVx x) s = .next t ∧ t.dt = s.reg x ∧ Frame [.delay] [] s t) ∧
    (∃ t, exec (.ldStVx x) s = .next t ∧ t.st = s.reg x ∧ (t.beeping = true ↔ (s.reg x).toNat ≠ 0) ∧
      Frame [.sound] [] s t)

/-- R338: FX0A, then m polls with no key, then key k goes down: the next step stores k and ends the wait without a
fetch, PC being past the FX0A all the while. -/
def Obligations.KeyWaitEndsOneStepAfterTheKey : Prop :=
  ∀ (s : State) (x : RegIdx) (m : Nat) (k : KeyIdx),
    s.keyAwait = none → decode s.fetchWord = .ok (.ldVxK x) → (∀ j, s.keyRead j = false) →
    let past := s.setPc (s.pc + 2#12)
    runOps (List.replicate (m + 1) .step) s = .next (past.setKeyAwait (some x)) ∧
    runOps (List.replicate (m + 1) .step ++ [.setKey k true, .step]) s =
      .next ((past.setKey k true).setReg x (BitVec.ofNat 8 k))

/-- R287, R288, R289, R290: n ticks bring a counter down by n, never below 0, and change nothing else; the beep
predicate holds while ST is not 0. -/
def Obligations.TicksCountDownToZero : Prop :=
  ∀ (n : Nat) (s : State),
    (∃ t, runOps (List.replicate n .delayTick) s = .next t ∧ t.dt.toNat = s.dt.toNat - n ∧ t = s.delayWrite t.dt) ∧
    (∃ t, runOps (List.replicate n .soundTick) s = .next t ∧ t.st.toNat = s.st.toNat - n ∧ t = s.soundWrite t.st ∧
      (t.beeping = true ↔ n < s.st.toNat))

/-- R340: FX15 writing d, n delay ticks, then FX07 reads max(d - n, 0). -/
def Obligations.DelayReadSeesTheTicksBetween : Prop :=
  ∀ (x y : RegIdx) (n : Nat) (s : State),
    ∃ a b t, exec (.ldDtVx x) s = .next a ∧ runOps (List.replicate n .delayTick) a = .next b ∧
      exec (.ldVxDt y) b = .next t ∧ (t.reg y).toNat = (s.reg x).toNat - n

/-! ## Reset and construction (70_reset_and_hazards.md) -/

/-- R332: the power-on CPU values, as State.reset has them. -/
def Obligations.PowerOnCpuValues : Prop :=
  (∀ r, State.reset.reg r = 0#8) ∧ State.reset.i = 0#12 ∧ State.reset.pc = 0x200#12 ∧ State.reset.stack = [] ∧
  State.reset.keyAwait = none

/-- R333, R334: the CPU reset restores those values and leaves the peripheral store as it was (R334, which the spec
derives). That it keeps the draws and the parameters is the model's choice (DESIGN CHOICE, log 7). -/
def Obligations.CpuResetKeepsPeripheralStore : Prop :=
  ∀ s : State, ∃ t, applyOp .cpuReset s = .next t ∧
    (∀ r, t.reg r = 0#8) ∧ t.i = 0#12 ∧ t.pc = 0x200#12 ∧ t.stack = [] ∧ t.keyAwait = none ∧
    Frame [.pc, .index, .stack, .keyAwait] (List.finRange 16) s t

/-- R330, R331: construction places MEM_INIT, then FONT at 0x000, then the image at 0x200, clears the rest, and gives
the power-on CPU values; an image longer than 0xE00 bytes is refused. The cleared store and the
refusal are the spec's decisions D15 and D17. -/
def Obligations.ConstructionLoadsFontAndImage : Prop :=
  ∀ (p : Params) (fontBytes : Vector Byte 80) (memInit : Vector Byte 4096) (image : List Byte),
    (0xE00 < image.length → State.construct p fontBytes memInit image = none) ∧
    (image.length ≤ 0xE00 → ∃ s, State.construct p fontBytes memInit image = some s ∧
      (∀ a : Addr, s.memRead a =
        if 0x200 ≤ a.toNat ∧ a.toNat < 0x200 + image.length then image.getD (a.toNat - 0x200) 0#8
        else if h : a.toNat < 80 then fontBytes[a.toNat] else memInit[a.toNat]'a.isLt) ∧
      (∀ x y, s.pixelRead x y = false) ∧ (∀ k, s.keyRead k = false) ∧ s.dt = 0#8 ∧ s.st = 0#8 ∧
      (∀ r, s.reg r = 0#8) ∧ s.i = 0#12 ∧ s.pc = 0x200#12 ∧ s.stack = [] ∧ s.keyAwait = none ∧ s.params = p)

/-- State.reset is what construction gives with the default parameters (the model's default FONT, log 2; MEM_INIT zero,
log 1) and an empty image. -/
def Obligations.ResetIsTheEmptySession : Prop :=
  ∀ fontBytes : Vector Byte 80, fontBytes.toList = font →
    State.construct Params.default fontBytes (Vector.replicate 4096 0#8) [] = some State.reset

/-! ## The host's keys (60_exceptions.md) -/

/-- R293, R296: the host sets or releases key k; that key alone takes the level given, and nothing else of the state
changes. That the draws and the parameters stay is the model's (log 7). -/
def Obligations.SetKeySetsThatKeyOnly : Prop :=
  ∀ (k : KeyIdx) (down : Bool) (s : State),
    ∃ t, applyOp (.setKey k down) s = .next t ∧ t.keyRead k = down ∧ (∀ j, j ≠ k → t.keyRead j = s.keyRead j) ∧
      t = { s with keys := t.keys }

/-! ## The model's store behind the bus contract (20_memory.md) -/

/-- R61: the model's own store implements the contract lawfully on canonical memories (log 24), and the model's step is
the CPU's step over an abstract store, taken beside that one. -/
def Obligations.StepIsTheBusStepOnTheModelsStore : Prop :=
  storeBus.Lawful (fun p => p.mem.wf = true) ∧
  (∀ s t : State, step s = .next t ↔ storeBus.step s.split = .next t.split) ∧
  (∀ (s : State) (a : Addr) (t : State),
    step s = .fault (.stackOverflow a t) ↔ storeBus.step s.split = .fault .stackOverflow a t.split) ∧
  (∀ (s : State) (a : Addr) (t : State),
    step s = .fault (.keyIndexOutOfRange a t) ↔ storeBus.step s.split = .fault .keyIndexOutOfRange a t.split)
end

