-- ==== Sys2Proof/Laws/Memory.lean ====
section
/-! SUPPORT. The laws of the byte memory: every operation keeps the canonical form, a write is read back and changes no
other byte, canonical memories that read alike are equal, and what a load leaves. -/

namespace Sys2Proof.Machine

theorem Memory.wfFrom_cons_iff {lo b : Nat} {u : Byte} {rest : Memory} :
    Memory.wfFrom lo ((b, u) :: rest) = true ↔
      lo ≤ b ∧ b < 0x1000 ∧ u ≠ initByte b ∧ Memory.wfFrom (b + 1) rest = true := by
  simp [Memory.wfFrom, and_assoc]

theorem Memory.wfFrom_mono {lo lo' : Nat} (h : lo' ≤ lo) :
    ∀ {m : Memory}, Memory.wfFrom lo m = true → Memory.wfFrom lo' m = true
  | [], _ => rfl
  | (_, _) :: _, hm => by
    rw [Memory.wfFrom_cons_iff] at hm ⊢
    exact ⟨h.trans hm.1, hm.2⟩

/-- Below the listed addresses a canonical memory reads as it did at construction. -/
theorem Memory.read_below {lo a : Nat} (ha : a < lo) :
    ∀ {m : Memory}, Memory.wfFrom lo m = true → Memory.read m a = initByte a
  | [], _ => rfl
  | (b, u) :: rest, hm => by
    obtain ⟨hlo, -, -, hrest⟩ := Memory.wfFrom_cons_iff.1 hm
    have hne : a ≠ b := by omega
    simpa [Memory.read, hne] using Memory.read_below (by omega) hrest

theorem Memory.wfFrom_cons {lo a : Nat} {w : Byte} {m : Memory} (hlo : lo ≤ a) (ha : a < 0x1000)
    (hm : Memory.wfFrom (a + 1) m = true) : Memory.wfFrom lo (Memory.cons a w m) = true := by
  unfold Memory.cons
  split
  · exact Memory.wfFrom_mono (by omega) hm
  · next hw => exact Memory.wfFrom_cons_iff.2 ⟨hlo, ha, hw, hm⟩

theorem Memory.read_cons {a : Nat} {w : Byte} {m : Memory} (hm : Memory.wfFrom (a + 1) m = true) (c : Nat) :
    Memory.read (Memory.cons a w m) c = if c = a then w else Memory.read m c := by
  unfold Memory.cons
  split
  · next hw =>
    split
    · next hc => rw [hc, hw, Memory.read_below (Nat.lt_succ_self a) hm]
    · rfl
  · rfl

theorem Memory.wfFrom_write {a : Nat} {w : Byte} (ha : a < 0x1000) :
    ∀ {lo : Nat} {m : Memory}, lo ≤ a → Memory.wfFrom lo m = true →
      Memory.wfFrom lo (Memory.write m a w) = true
  | _, [], hlo, _ => Memory.wfFrom_cons hlo ha rfl
  | lo, (b, u) :: rest, hlo, hm => by
    obtain ⟨hb, hb', hu, hrest⟩ := Memory.wfFrom_cons_iff.1 hm
    unfold Memory.write
    split
    · next hab => exact Memory.wfFrom_cons hlo ha (Memory.wfFrom_cons_iff.2 ⟨hab, hb', hu, hrest⟩)
    · split
      · next hab => exact Memory.wfFrom_cons hlo ha (hab ▸ hrest)
      · exact Memory.wfFrom_cons_iff.2 ⟨hb, hb', hu, Memory.wfFrom_write ha (by omega) hrest⟩

theorem Memory.read_writeFrom {a : Nat} {w : Byte} (c : Nat) :
    ∀ {lo : Nat} {m : Memory}, Memory.wfFrom lo m = true →
      Memory.read (Memory.write m a w) c = if c = a then w else Memory.read m c
  | _, [], _ => Memory.read_cons rfl c
  | lo, (b, u) :: rest, hm => by
    obtain ⟨hb, hb', hu, hrest⟩ := Memory.wfFrom_cons_iff.1 hm
    unfold Memory.write
    split
    · next hab => exact Memory.read_cons (Memory.wfFrom_cons_iff.2 ⟨hab, hb', hu, hrest⟩) c
    · split
      · next hab =>
        subst hab
        rw [Memory.read_cons hrest]
        by_cases hc : c = a <;> simp [Memory.read, hc]
      · next hab =>
        have ih := Memory.read_writeFrom (a := a) (w := w) c hrest
        by_cases hc : c = b
        · have : c ≠ a := by omega
          simp [Memory.read, hc, show b ≠ a by omega]
        · simp [Memory.read, hc, ih]

/-- Every write keeps the canonical form. -/
theorem Memory.wf_write {m : Memory} {a : Nat} {w : Byte} (ha : a < 0x1000) (hm : m.wf = true) :
    (m.write a w).wf = true :=
  Memory.wfFrom_write ha (Nat.zero_le a) hm

/-- A write is read back, and changes no other byte. -/
theorem Memory.read_write {m : Memory} (hm : m.wf = true) (a c : Nat) (w : Byte) :
    (m.write a w).read c = if c = a then w else m.read c :=
  Memory.read_writeFrom c hm

/-- Canonical memories that read alike at every address are equal. -/
theorem Memory.eq_of_read_eq :
    ∀ {lo : Nat} {m n : Memory}, Memory.wfFrom lo m = true → Memory.wfFrom lo n = true →
      (∀ a, a < 0x1000 → Memory.read m a = Memory.read n a) → m = n
  | _, [], [], _, _, _ => rfl
  | _, [], (b, u) :: n, _, hn, h => by
    obtain ⟨-, hb, hu, -⟩ := Memory.wfFrom_cons_iff.1 hn
    exact absurd (by simpa [Memory.read] using (h b hb).symm) hu
  | _, (b, u) :: m, [], hm, _, h => by
    obtain ⟨-, hb, hu, -⟩ := Memory.wfFrom_cons_iff.1 hm
    exact absurd (by simpa [Memory.read] using h b hb) hu
  | lo, (b, u) :: m, (c, w) :: n, hm, hn, h => by
    obtain ⟨hb, hb', hu, hm'⟩ := Memory.wfFrom_cons_iff.1 hm
    obtain ⟨hc, hc', hw, hn'⟩ := Memory.wfFrom_cons_iff.1 hn
    have hbc : b = c := by
      rcases Nat.lt_trichotomy b c with hlt | heq | hgt
      · have hbr := h b hb'
        rw [Memory.read_below hlt (Memory.wfFrom_cons_iff.2 ⟨Nat.le_refl c, hc', hw, hn'⟩)] at hbr
        exact absurd (by simpa [Memory.read] using hbr) hu
      · exact heq
      · have hcr := h c hc'
        rw [Memory.read_below hgt (Memory.wfFrom_cons_iff.2 ⟨Nat.le_refl b, hb', hu, hm'⟩)] at hcr
        exact absurd (by simpa [Memory.read] using hcr.symm) hw
    subst hbc
    have huw : u = w := by simpa [Memory.read] using h b hb'
    have hrest : m = n := Memory.eq_of_read_eq hm' hn' fun a ha => by
      by_cases hab : a = b
      · subst hab
        rw [Memory.read_below (Nat.lt_succ_self a) hm', Memory.read_below (Nat.lt_succ_self a) hn']
      · simpa [Memory.read, hab] using h a ha
    rw [huw, hrest]

/-- A load keeps the canonical form. -/
theorem Memory.wf_load : ∀ (bytes : List Byte) {m : Memory} {a : Nat}, a + bytes.length ≤ 0x1000 → m.wf = true →
    (m.load a bytes).wf = true
  | [], _, _, _, hm => hm
  | w :: rest, m, a, hlen, hm => by
    simp only [List.length_cons] at hlen
    exact Memory.wf_load rest (by omega) (Memory.wf_write (by omega) hm)

/-- What a load leaves: its bytes from the address up, every other byte as before. -/
theorem Memory.read_load : ∀ (bytes : List Byte) {m : Memory} {a : Nat}, a + bytes.length ≤ 0x1000 → m.wf = true →
    ∀ c, (m.load a bytes).read c =
      if a ≤ c ∧ c < a + bytes.length then bytes.getD (c - a) 0#8 else m.read c
  | [], m, a, _, _, c => by
    have : ¬(a ≤ c ∧ c < a + ([] : List Byte).length) := by simp
    rw [if_neg this]; rfl
  | w :: rest, m, a, hlen, hm, c => by
    simp only [List.length_cons] at hlen
    have ih := Memory.read_load rest (m := m.write a w) (a := a + 1) (by omega) (Memory.wf_write (by omega) hm) c
    rw [Memory.load, ih, Memory.read_write hm]
    by_cases hca : c = a
    · subst hca
      simp
    · by_cases hin : a + 1 ≤ c ∧ c < a + 1 + rest.length
      · have hin' : a ≤ c ∧ c < a + (w :: rest).length := by simp only [List.length_cons]; omega
        rw [if_pos hin, if_pos hin', show c - a = (c - (a + 1)) + 1 by omega, List.getD_cons_succ]
      · have hin' : ¬(a ≤ c ∧ c < a + (w :: rest).length) := by simp only [List.length_cons]; omega
        rw [if_neg hin, if_neg hin', if_neg hca]

/-- The empty memory of State.reset is canonical. -/
theorem Memory.wf_nil : Memory.wf [] = true := rfl

end Sys2Proof.Machine
end

