-- ==== Sys2Proof/Laws/State.lean ====
section
/-! SUPPORT. One lemma per field and update of State, and per bus read an update does not touch: what each update
writes, and that it leaves every other field alone. Proofs cite these and never unfold a record update. -/

namespace Sys2Proof.Machine

variable (s : State)

/-! ## setReg -/

@[simp] theorem State.v_setReg (r : RegIdx) (w : Byte) : (s.setReg r w).v = s.v.set r w := rfl
@[simp] theorem State.pc_setReg (r : RegIdx) (w : Byte) : (s.setReg r w).pc = s.pc := rfl
@[simp] theorem State.i_setReg (r : RegIdx) (w : Byte) : (s.setReg r w).i = s.i := rfl
@[simp] theorem State.stack_setReg (r : RegIdx) (w : Byte) : (s.setReg r w).stack = s.stack := rfl
@[simp] theorem State.keyAwait_setReg (r : RegIdx) (w : Byte) : (s.setReg r w).keyAwait = s.keyAwait := rfl
@[simp] theorem State.mem_setReg (r : RegIdx) (w : Byte) : (s.setReg r w).mem = s.mem := rfl
@[simp] theorem State.video_setReg (r : RegIdx) (w : Byte) : (s.setReg r w).video = s.video := rfl
@[simp] theorem State.keys_setReg (r : RegIdx) (w : Byte) : (s.setReg r w).keys = s.keys := rfl
@[simp] theorem State.dt_setReg (r : RegIdx) (w : Byte) : (s.setReg r w).dt = s.dt := rfl
@[simp] theorem State.st_setReg (r : RegIdx) (w : Byte) : (s.setReg r w).st = s.st := rfl
@[simp] theorem State.draws_setReg (r : RegIdx) (w : Byte) : (s.setReg r w).draws = s.draws := rfl
@[simp] theorem State.params_setReg (r : RegIdx) (w : Byte) : (s.setReg r w).params = s.params := rfl
@[simp] theorem State.memRead_setReg (r : RegIdx) (w : Byte) (c : Addr) : (s.setReg r w).memRead c = s.memRead c := rfl
@[simp] theorem State.pixelRead_setReg (r : RegIdx) (w : Byte) (cx cy : Nat) : (s.setReg r w).pixelRead cx cy = s.pixelRead cx cy := rfl
@[simp] theorem State.keyRead_setReg (r : RegIdx) (w : Byte) (c : KeyIdx) : (s.setReg r w).keyRead c = s.keyRead c := rfl

/-! ## setPc -/

@[simp] theorem State.v_setPc (a : Addr) : (s.setPc a).v = s.v := rfl
@[simp] theorem State.pc_setPc (a : Addr) : (s.setPc a).pc = a := rfl
@[simp] theorem State.i_setPc (a : Addr) : (s.setPc a).i = s.i := rfl
@[simp] theorem State.stack_setPc (a : Addr) : (s.setPc a).stack = s.stack := rfl
@[simp] theorem State.keyAwait_setPc (a : Addr) : (s.setPc a).keyAwait = s.keyAwait := rfl
@[simp] theorem State.mem_setPc (a : Addr) : (s.setPc a).mem = s.mem := rfl
@[simp] theorem State.video_setPc (a : Addr) : (s.setPc a).video = s.video := rfl
@[simp] theorem State.keys_setPc (a : Addr) : (s.setPc a).keys = s.keys := rfl
@[simp] theorem State.dt_setPc (a : Addr) : (s.setPc a).dt = s.dt := rfl
@[simp] theorem State.st_setPc (a : Addr) : (s.setPc a).st = s.st := rfl
@[simp] theorem State.draws_setPc (a : Addr) : (s.setPc a).draws = s.draws := rfl
@[simp] theorem State.params_setPc (a : Addr) : (s.setPc a).params = s.params := rfl
@[simp] theorem State.reg_setPc (a : Addr) (q : RegIdx) : (s.setPc a).reg q = s.reg q := rfl
@[simp] theorem State.memRead_setPc (a : Addr) (c : Addr) : (s.setPc a).memRead c = s.memRead c := rfl
@[simp] theorem State.pixelRead_setPc (a : Addr) (cx cy : Nat) : (s.setPc a).pixelRead cx cy = s.pixelRead cx cy := rfl
@[simp] theorem State.keyRead_setPc (a : Addr) (c : KeyIdx) : (s.setPc a).keyRead c = s.keyRead c := rfl

/-! ## setI -/

@[simp] theorem State.v_setI (a : Addr) : (s.setI a).v = s.v := rfl
@[simp] theorem State.pc_setI (a : Addr) : (s.setI a).pc = s.pc := rfl
@[simp] theorem State.i_setI (a : Addr) : (s.setI a).i = a := rfl
@[simp] theorem State.stack_setI (a : Addr) : (s.setI a).stack = s.stack := rfl
@[simp] theorem State.keyAwait_setI (a : Addr) : (s.setI a).keyAwait = s.keyAwait := rfl
@[simp] theorem State.mem_setI (a : Addr) : (s.setI a).mem = s.mem := rfl
@[simp] theorem State.video_setI (a : Addr) : (s.setI a).video = s.video := rfl
@[simp] theorem State.keys_setI (a : Addr) : (s.setI a).keys = s.keys := rfl
@[simp] theorem State.dt_setI (a : Addr) : (s.setI a).dt = s.dt := rfl
@[simp] theorem State.st_setI (a : Addr) : (s.setI a).st = s.st := rfl
@[simp] theorem State.draws_setI (a : Addr) : (s.setI a).draws = s.draws := rfl
@[simp] theorem State.params_setI (a : Addr) : (s.setI a).params = s.params := rfl
@[simp] theorem State.reg_setI (a : Addr) (q : RegIdx) : (s.setI a).reg q = s.reg q := rfl
@[simp] theorem State.memRead_setI (a : Addr) (c : Addr) : (s.setI a).memRead c = s.memRead c := rfl
@[simp] theorem State.pixelRead_setI (a : Addr) (cx cy : Nat) : (s.setI a).pixelRead cx cy = s.pixelRead cx cy := rfl
@[simp] theorem State.keyRead_setI (a : Addr) (c : KeyIdx) : (s.setI a).keyRead c = s.keyRead c := rfl

/-! ## setStack -/

@[simp] theorem State.v_setStack (l : List Addr) : (s.setStack l).v = s.v := rfl
@[simp] theorem State.pc_setStack (l : List Addr) : (s.setStack l).pc = s.pc := rfl
@[simp] theorem State.i_setStack (l : List Addr) : (s.setStack l).i = s.i := rfl
@[simp] theorem State.stack_setStack (l : List Addr) : (s.setStack l).stack = l := rfl
@[simp] theorem State.keyAwait_setStack (l : List Addr) : (s.setStack l).keyAwait = s.keyAwait := rfl
@[simp] theorem State.mem_setStack (l : List Addr) : (s.setStack l).mem = s.mem := rfl
@[simp] theorem State.video_setStack (l : List Addr) : (s.setStack l).video = s.video := rfl
@[simp] theorem State.keys_setStack (l : List Addr) : (s.setStack l).keys = s.keys := rfl
@[simp] theorem State.dt_setStack (l : List Addr) : (s.setStack l).dt = s.dt := rfl
@[simp] theorem State.st_setStack (l : List Addr) : (s.setStack l).st = s.st := rfl
@[simp] theorem State.draws_setStack (l : List Addr) : (s.setStack l).draws = s.draws := rfl
@[simp] theorem State.params_setStack (l : List Addr) : (s.setStack l).params = s.params := rfl
@[simp] theorem State.reg_setStack (l : List Addr) (q : RegIdx) : (s.setStack l).reg q = s.reg q := rfl
@[simp] theorem State.memRead_setStack (l : List Addr) (c : Addr) : (s.setStack l).memRead c = s.memRead c := rfl
@[simp] theorem State.pixelRead_setStack (l : List Addr) (cx cy : Nat) : (s.setStack l).pixelRead cx cy = s.pixelRead cx cy := rfl
@[simp] theorem State.keyRead_setStack (l : List Addr) (c : KeyIdx) : (s.setStack l).keyRead c = s.keyRead c := rfl

/-! ## setKeyAwait -/

@[simp] theorem State.v_setKeyAwait (k : Option RegIdx) : (s.setKeyAwait k).v = s.v := rfl
@[simp] theorem State.pc_setKeyAwait (k : Option RegIdx) : (s.setKeyAwait k).pc = s.pc := rfl
@[simp] theorem State.i_setKeyAwait (k : Option RegIdx) : (s.setKeyAwait k).i = s.i := rfl
@[simp] theorem State.stack_setKeyAwait (k : Option RegIdx) : (s.setKeyAwait k).stack = s.stack := rfl
@[simp] theorem State.keyAwait_setKeyAwait (k : Option RegIdx) : (s.setKeyAwait k).keyAwait = k := rfl
@[simp] theorem State.mem_setKeyAwait (k : Option RegIdx) : (s.setKeyAwait k).mem = s.mem := rfl
@[simp] theorem State.video_setKeyAwait (k : Option RegIdx) : (s.setKeyAwait k).video = s.video := rfl
@[simp] theorem State.keys_setKeyAwait (k : Option RegIdx) : (s.setKeyAwait k).keys = s.keys := rfl
@[simp] theorem State.dt_setKeyAwait (k : Option RegIdx) : (s.setKeyAwait k).dt = s.dt := rfl
@[simp] theorem State.st_setKeyAwait (k : Option RegIdx) : (s.setKeyAwait k).st = s.st := rfl
@[simp] theorem State.draws_setKeyAwait (k : Option RegIdx) : (s.setKeyAwait k).draws = s.draws := rfl
@[simp] theorem State.params_setKeyAwait (k : Option RegIdx) : (s.setKeyAwait k).params = s.params := rfl
@[simp] theorem State.reg_setKeyAwait (k : Option RegIdx) (q : RegIdx) : (s.setKeyAwait k).reg q = s.reg q := rfl
@[simp] theorem State.memRead_setKeyAwait (k : Option RegIdx) (c : Addr) : (s.setKeyAwait k).memRead c = s.memRead c := rfl
@[simp] theorem State.pixelRead_setKeyAwait (k : Option RegIdx) (cx cy : Nat) : (s.setKeyAwait k).pixelRead cx cy = s.pixelRead cx cy := rfl
@[simp] theorem State.keyRead_setKeyAwait (k : Option RegIdx) (c : KeyIdx) : (s.setKeyAwait k).keyRead c = s.keyRead c := rfl

/-! ## memWrite -/

@[simp] theorem State.v_memWrite (a : Addr) (w : Byte) : (s.memWrite a w).v = s.v := rfl
@[simp] theorem State.pc_memWrite (a : Addr) (w : Byte) : (s.memWrite a w).pc = s.pc := rfl
@[simp] theorem State.i_memWrite (a : Addr) (w : Byte) : (s.memWrite a w).i = s.i := rfl
@[simp] theorem State.stack_memWrite (a : Addr) (w : Byte) : (s.memWrite a w).stack = s.stack := rfl
@[simp] theorem State.keyAwait_memWrite (a : Addr) (w : Byte) : (s.memWrite a w).keyAwait = s.keyAwait := rfl
@[simp] theorem State.mem_memWrite (a : Addr) (w : Byte) : (s.memWrite a w).mem = s.mem.write a.toNat w := rfl
@[simp] theorem State.video_memWrite (a : Addr) (w : Byte) : (s.memWrite a w).video = s.video := rfl
@[simp] theorem State.keys_memWrite (a : Addr) (w : Byte) : (s.memWrite a w).keys = s.keys := rfl
@[simp] theorem State.dt_memWrite (a : Addr) (w : Byte) : (s.memWrite a w).dt = s.dt := rfl
@[simp] theorem State.st_memWrite (a : Addr) (w : Byte) : (s.memWrite a w).st = s.st := rfl
@[simp] theorem State.draws_memWrite (a : Addr) (w : Byte) : (s.memWrite a w).draws = s.draws := rfl
@[simp] theorem State.params_memWrite (a : Addr) (w : Byte) : (s.memWrite a w).params = s.params := rfl
@[simp] theorem State.reg_memWrite (a : Addr) (w : Byte) (q : RegIdx) : (s.memWrite a w).reg q = s.reg q := rfl
@[simp] theorem State.pixelRead_memWrite (a : Addr) (w : Byte) (cx cy : Nat) : (s.memWrite a w).pixelRead cx cy = s.pixelRead cx cy := rfl
@[simp] theorem State.keyRead_memWrite (a : Addr) (w : Byte) (c : KeyIdx) : (s.memWrite a w).keyRead c = s.keyRead c := rfl

/-! ## screenClear -/

@[simp] theorem State.v_screenClear : s.screenClear.v = s.v := rfl
@[simp] theorem State.pc_screenClear : s.screenClear.pc = s.pc := rfl
@[simp] theorem State.i_screenClear : s.screenClear.i = s.i := rfl
@[simp] theorem State.stack_screenClear : s.screenClear.stack = s.stack := rfl
@[simp] theorem State.keyAwait_screenClear : s.screenClear.keyAwait = s.keyAwait := rfl
@[simp] theorem State.mem_screenClear : s.screenClear.mem = s.mem := rfl
@[simp] theorem State.video_screenClear : s.screenClear.video = Vector.replicate 64 (Vector.replicate 32 false) := rfl
@[simp] theorem State.keys_screenClear : s.screenClear.keys = s.keys := rfl
@[simp] theorem State.dt_screenClear : s.screenClear.dt = s.dt := rfl
@[simp] theorem State.st_screenClear : s.screenClear.st = s.st := rfl
@[simp] theorem State.draws_screenClear : s.screenClear.draws = s.draws := rfl
@[simp] theorem State.params_screenClear : s.screenClear.params = s.params := rfl
@[simp] theorem State.reg_screenClear (q : RegIdx) : s.screenClear.reg q = s.reg q := rfl
@[simp] theorem State.memRead_screenClear (c : Addr) : s.screenClear.memRead c = s.memRead c := rfl
@[simp] theorem State.keyRead_screenClear (c : KeyIdx) : s.screenClear.keyRead c = s.keyRead c := rfl

/-! ## pixelWrite -/

@[simp] theorem State.v_pixelWrite (x y : Nat) (b : Bool) : (s.pixelWrite x y b).v = s.v := rfl
@[simp] theorem State.pc_pixelWrite (x y : Nat) (b : Bool) : (s.pixelWrite x y b).pc = s.pc := rfl
@[simp] theorem State.i_pixelWrite (x y : Nat) (b : Bool) : (s.pixelWrite x y b).i = s.i := rfl
@[simp] theorem State.stack_pixelWrite (x y : Nat) (b : Bool) : (s.pixelWrite x y b).stack = s.stack := rfl
@[simp] theorem State.keyAwait_pixelWrite (x y : Nat) (b : Bool) : (s.pixelWrite x y b).keyAwait = s.keyAwait := rfl
@[simp] theorem State.mem_pixelWrite (x y : Nat) (b : Bool) : (s.pixelWrite x y b).mem = s.mem := rfl
@[simp] theorem State.video_pixelWrite (x y : Nat) (b : Bool) : (s.pixelWrite x y b).video = Video.write s.video x y b := rfl
@[simp] theorem State.keys_pixelWrite (x y : Nat) (b : Bool) : (s.pixelWrite x y b).keys = s.keys := rfl
@[simp] theorem State.dt_pixelWrite (x y : Nat) (b : Bool) : (s.pixelWrite x y b).dt = s.dt := rfl
@[simp] theorem State.st_pixelWrite (x y : Nat) (b : Bool) : (s.pixelWrite x y b).st = s.st := rfl
@[simp] theorem State.draws_pixelWrite (x y : Nat) (b : Bool) : (s.pixelWrite x y b).draws = s.draws := rfl
@[simp] theorem State.params_pixelWrite (x y : Nat) (b : Bool) : (s.pixelWrite x y b).params = s.params := rfl
@[simp] theorem State.reg_pixelWrite (x y : Nat) (b : Bool) (q : RegIdx) : (s.pixelWrite x y b).reg q = s.reg q := rfl
@[simp] theorem State.memRead_pixelWrite (x y : Nat) (b : Bool) (c : Addr) : (s.pixelWrite x y b).memRead c = s.memRead c := rfl
@[simp] theorem State.keyRead_pixelWrite (x y : Nat) (b : Bool) (c : KeyIdx) : (s.pixelWrite x y b).keyRead c = s.keyRead c := rfl

/-! ## delayWrite -/

@[simp] theorem State.v_delayWrite (w : Byte) : (s.delayWrite w).v = s.v := rfl
@[simp] theorem State.pc_delayWrite (w : Byte) : (s.delayWrite w).pc = s.pc := rfl
@[simp] theorem State.i_delayWrite (w : Byte) : (s.delayWrite w).i = s.i := rfl
@[simp] theorem State.stack_delayWrite (w : Byte) : (s.delayWrite w).stack = s.stack := rfl
@[simp] theorem State.keyAwait_delayWrite (w : Byte) : (s.delayWrite w).keyAwait = s.keyAwait := rfl
@[simp] theorem State.mem_delayWrite (w : Byte) : (s.delayWrite w).mem = s.mem := rfl
@[simp] theorem State.video_delayWrite (w : Byte) : (s.delayWrite w).video = s.video := rfl
@[simp] theorem State.keys_delayWrite (w : Byte) : (s.delayWrite w).keys = s.keys := rfl
@[simp] theorem State.dt_delayWrite (w : Byte) : (s.delayWrite w).dt = w := rfl
@[simp] theorem State.st_delayWrite (w : Byte) : (s.delayWrite w).st = s.st := rfl
@[simp] theorem State.draws_delayWrite (w : Byte) : (s.delayWrite w).draws = s.draws := rfl
@[simp] theorem State.params_delayWrite (w : Byte) : (s.delayWrite w).params = s.params := rfl
@[simp] theorem State.reg_delayWrite (w : Byte) (q : RegIdx) : (s.delayWrite w).reg q = s.reg q := rfl
@[simp] theorem State.memRead_delayWrite (w : Byte) (c : Addr) : (s.delayWrite w).memRead c = s.memRead c := rfl
@[simp] theorem State.pixelRead_delayWrite (w : Byte) (cx cy : Nat) : (s.delayWrite w).pixelRead cx cy = s.pixelRead cx cy := rfl
@[simp] theorem State.keyRead_delayWrite (w : Byte) (c : KeyIdx) : (s.delayWrite w).keyRead c = s.keyRead c := rfl

/-! ## soundWrite -/

@[simp] theorem State.v_soundWrite (w : Byte) : (s.soundWrite w).v = s.v := rfl
@[simp] theorem State.pc_soundWrite (w : Byte) : (s.soundWrite w).pc = s.pc := rfl
@[simp] theorem State.i_soundWrite (w : Byte) : (s.soundWrite w).i = s.i := rfl
@[simp] theorem State.stack_soundWrite (w : Byte) : (s.soundWrite w).stack = s.stack := rfl
@[simp] theorem State.keyAwait_soundWrite (w : Byte) : (s.soundWrite w).keyAwait = s.keyAwait := rfl
@[simp] theorem State.mem_soundWrite (w : Byte) : (s.soundWrite w).mem = s.mem := rfl
@[simp] theorem State.video_soundWrite (w : Byte) : (s.soundWrite w).video = s.video := rfl
@[simp] theorem State.keys_soundWrite (w : Byte) : (s.soundWrite w).keys = s.keys := rfl
@[simp] theorem State.dt_soundWrite (w : Byte) : (s.soundWrite w).dt = s.dt := rfl
@[simp] theorem State.st_soundWrite (w : Byte) : (s.soundWrite w).st = w := rfl
@[simp] theorem State.draws_soundWrite (w : Byte) : (s.soundWrite w).draws = s.draws := rfl
@[simp] theorem State.params_soundWrite (w : Byte) : (s.soundWrite w).params = s.params := rfl
@[simp] theorem State.reg_soundWrite (w : Byte) (q : RegIdx) : (s.soundWrite w).reg q = s.reg q := rfl
@[simp] theorem State.memRead_soundWrite (w : Byte) (c : Addr) : (s.soundWrite w).memRead c = s.memRead c := rfl
@[simp] theorem State.pixelRead_soundWrite (w : Byte) (cx cy : Nat) : (s.soundWrite w).pixelRead cx cy = s.pixelRead cx cy := rfl
@[simp] theorem State.keyRead_soundWrite (w : Byte) (c : KeyIdx) : (s.soundWrite w).keyRead c = s.keyRead c := rfl

/-! ## afterDraw -/

@[simp] theorem State.v_afterDraw : s.afterDraw.v = s.v := rfl
@[simp] theorem State.pc_afterDraw : s.afterDraw.pc = s.pc := rfl
@[simp] theorem State.i_afterDraw : s.afterDraw.i = s.i := rfl
@[simp] theorem State.stack_afterDraw : s.afterDraw.stack = s.stack := rfl
@[simp] theorem State.keyAwait_afterDraw : s.afterDraw.keyAwait = s.keyAwait := rfl
@[simp] theorem State.mem_afterDraw : s.afterDraw.mem = s.mem := rfl
@[simp] theorem State.video_afterDraw : s.afterDraw.video = s.video := rfl
@[simp] theorem State.keys_afterDraw : s.afterDraw.keys = s.keys := rfl
@[simp] theorem State.dt_afterDraw : s.afterDraw.dt = s.dt := rfl
@[simp] theorem State.st_afterDraw : s.afterDraw.st = s.st := rfl
@[simp] theorem State.draws_afterDraw : s.afterDraw.draws = s.draws + 1 := rfl
@[simp] theorem State.params_afterDraw : s.afterDraw.params = s.params := rfl
@[simp] theorem State.reg_afterDraw (q : RegIdx) : s.afterDraw.reg q = s.reg q := rfl
@[simp] theorem State.memRead_afterDraw (c : Addr) : s.afterDraw.memRead c = s.memRead c := rfl
@[simp] theorem State.pixelRead_afterDraw (cx cy : Nat) : s.afterDraw.pixelRead cx cy = s.pixelRead cx cy := rfl
@[simp] theorem State.keyRead_afterDraw (c : KeyIdx) : s.afterDraw.keyRead c = s.keyRead c := rfl

/-! ## setKey -/

@[simp] theorem State.v_setKey (k : KeyIdx) (down : Bool) : (s.setKey k down).v = s.v := rfl
@[simp] theorem State.pc_setKey (k : KeyIdx) (down : Bool) : (s.setKey k down).pc = s.pc := rfl
@[simp] theorem State.i_setKey (k : KeyIdx) (down : Bool) : (s.setKey k down).i = s.i := rfl
@[simp] theorem State.stack_setKey (k : KeyIdx) (down : Bool) : (s.setKey k down).stack = s.stack := rfl
@[simp] theorem State.keyAwait_setKey (k : KeyIdx) (down : Bool) : (s.setKey k down).keyAwait = s.keyAwait := rfl
@[simp] theorem State.mem_setKey (k : KeyIdx) (down : Bool) : (s.setKey k down).mem = s.mem := rfl
@[simp] theorem State.video_setKey (k : KeyIdx) (down : Bool) : (s.setKey k down).video = s.video := rfl
@[simp] theorem State.keys_setKey (k : KeyIdx) (down : Bool) : (s.setKey k down).keys = s.keys.set k down := rfl
@[simp] theorem State.dt_setKey (k : KeyIdx) (down : Bool) : (s.setKey k down).dt = s.dt := rfl
@[simp] theorem State.st_setKey (k : KeyIdx) (down : Bool) : (s.setKey k down).st = s.st := rfl
@[simp] theorem State.draws_setKey (k : KeyIdx) (down : Bool) : (s.setKey k down).draws = s.draws := rfl
@[simp] theorem State.params_setKey (k : KeyIdx) (down : Bool) : (s.setKey k down).params = s.params := rfl
@[simp] theorem State.reg_setKey (k : KeyIdx) (down : Bool) (q : RegIdx) : (s.setKey k down).reg q = s.reg q := rfl
@[simp] theorem State.memRead_setKey (k : KeyIdx) (down : Bool) (c : Addr) : (s.setKey k down).memRead c = s.memRead c := rfl
@[simp] theorem State.pixelRead_setKey (k : KeyIdx) (down : Bool) (cx cy : Nat) : (s.setKey k down).pixelRead cx cy = s.pixelRead cx cy := rfl

end Sys2Proof.Machine
end

