-- ==== Sys2Proof/Laws/Ops.lean ====
section
/-! SUPPORT. One lemma for each shared operation that says all it can do: registers, memory, pixels, addresses, skips,
key tests, the key poll, register blocks and flags. -/

namespace Sys2Proof.Machine

/-! ## The shared operations on State, in State's own words

Each is the engine's operation (Machine/Ops.lean, Operands.lean, Flags.lean) at State's ports. -/

theorem State.memRead_eq (s : State) (a : Addr) : s.memRead a = s.mem.read a.toNat := rfl
theorem State.memWrite_eq (s : State) (a : Addr) (w : Byte) : s.memWrite a w = { s with mem := s.mem.write a.toNat w } := rfl
theorem State.keyRead_eq (s : State) (k : KeyIdx) : s.keyRead k = s.keys[k] := rfl
theorem State.pixelRead_eq (s : State) (x y : Nat) : s.pixelRead x y = Video.read s.video x y := rfl
theorem State.screenClear_eq (s : State) :
    s.screenClear = { s with video := Vector.replicate 64 (Vector.replicate 32 false) } := rfl
theorem State.nextByte_eq (s : State) : s.nextByte = Config.freeByte s.draws := rfl
theorem State.nextBit_eq (s : State) : s.nextBit = Config.freeBit s.draws := rfl
theorem State.fetchWord_eq (s : State) :
    s.fetchWord = opcodeOfBytes (s.memRead s.pc) (s.memRead (s.pc + 1#12)) := rfl
theorem State.dataAddr_eq (s : State) (k : Nat) : s.dataAddr k = s.i + BitVec.ofNat 12 k := rfl
theorem State.setRegFlag_eq (s : State) (x : RegIdx) (w f : Byte) :
    s.setRegFlag x w f = (s.setReg x w).setReg VF f := rfl
theorem State.storeRegs_succ (s : State) (n : Nat) :
    s.storeRegs (n + 1) =
      (s.storeRegs n).memWrite ((s.storeRegs n).dataAddr n) ((s.storeRegs n).reg (Fin.ofNat 16 n)) := rfl
theorem State.loadRegs_succ (s : State) (n : Nat) :
    s.loadRegs (n + 1) =
      (s.loadRegs n).setReg (Fin.ofNat 16 n) ((s.loadRegs n).memRead ((s.loadRegs n).dataAddr n)) := rfl

/-! ## Registers -/

theorem State.reg_setReg (s : State) (r q : RegIdx) (w : Byte) :
    (s.setReg r w).reg q = if q = r then w else s.reg q := by
  simp only [State.reg, State.setReg, Fin.getElem_fin, Vector.getElem_set, Fin.ext_iff]
  simp only [eq_comm]

@[simp] theorem State.reg_setReg_same (s : State) (r : RegIdx) (w : Byte) : (s.setReg r w).reg r = w := by
  simp [State.reg_setReg]

theorem State.reg_setReg_ne {s : State} {r q : RegIdx} {w : Byte} (h : q ≠ r) : (s.setReg r w).reg q = s.reg q := by
  simp [State.reg_setReg, h]

/-- Register files that read alike are equal. -/
theorem State.v_eq_of_reg {s t : State} (h : ∀ r, s.reg r = t.reg r) : s.v = t.v := by
  refine Vector.ext fun k hk => ?_
  simpa [State.reg] using h ⟨k, hk⟩

@[simp] theorem State.setReg_setReg (s : State) (r : RegIdx) (a b : Byte) : (s.setReg r a).setReg r b = s.setReg r b := by
  simp [State.setReg]

theorem State.setReg_comm (s : State) {r q : RegIdx} (h : r ≠ q) (a b : Byte) :
    (s.setReg r a).setReg q b = (s.setReg q b).setReg r a := by
  simp only [State.setReg]
  rw [Vector.set_comm]
  exact fun e => h (Fin.ext e)

/-- The two writes of a flag-setting instruction: the flag is written last. -/
theorem State.reg_setRegFlag (s : State) (x q : RegIdx) (w f : Byte) :
    (s.setRegFlag x w f).reg q = if q = VF then f else if q = x then w else s.reg q := by
  rw [State.setRegFlag_eq, State.reg_setReg, State.reg_setReg]

/-! ## Memory -/

theorem State.memRead_memWrite {s : State} (h : s.mem.wf = true) (a b : Addr) (w : Byte) :
    (s.memWrite a w).memRead b = if b = a then w else s.memRead b := by
  simp only [State.memRead_eq, State.memWrite_eq, Memory.read_write h, BitVec.toNat_inj]

theorem State.wf_memWrite {s : State} (h : s.mem.wf = true) (a : Addr) (w : Byte) :
    (s.memWrite a w).mem.wf = true :=
  Memory.wf_write a.isLt h

theorem State.toNat_dataAddr (s : State) (k : Nat) : (s.dataAddr k).toNat = (s.i.toNat + k) % 0x1000 := by
  simp [State.dataAddr_eq, BitVec.toNat_add]

/-- Data addresses less than a whole memory apart are distinct. -/
theorem State.dataAddr_inj {s : State} {j k : Nat} (hj : j < 0x1000) (hk : k < 0x1000) :
    s.dataAddr j = s.dataAddr k ↔ j = k := by
  rw [← BitVec.toNat_inj, State.toNat_dataAddr, State.toNat_dataAddr]
  omega

/-- A data address depends on I alone. -/
theorem State.dataAddr_congr {s t : State} (h : t.i = s.i) (k : Nat) : t.dataAddr k = s.dataAddr k := by
  rw [State.dataAddr_eq, State.dataAddr_eq, h]

/-! ## Pixels -/

theorem Video.read_mod (f : Video) (x y : Nat) : Video.read f (x % 64) (y % 32) = Video.read f x y := by
  simp [Video.read]

theorem Video.read_write (f : Video) (x y px py : Nat) (b : Bool) :
    Video.read (Video.write f px py b) x y =
      if x % 64 = px % 64 ∧ y % 32 = py % 32 then b else Video.read f x y := by
  unfold Video.read Video.write
  by_cases hx : x % 64 = px % 64
  · by_cases hy : y % 32 = py % 32
    · simp [hx, hy]
    · simp [hx, hy, Ne.symm hy]
  · simp [hx, Ne.symm hx]

theorem State.pixelRead_pixelWrite (s : State) (x y px py : Nat) (b : Bool) :
    (s.pixelWrite px py b).pixelRead x y =
      if x % 64 = px % 64 ∧ y % 32 = py % 32 then b else s.pixelRead x y :=
  Video.read_write s.video x y px py b

theorem State.pixelRead_screenClear (s : State) (x y : Nat) : s.screenClear.pixelRead x y = false := by
  simp [State.pixelRead_eq, State.screenClear_eq, Video.read]

/-! ## Skips and key tests -/

/-- A skip writes PC and nothing else. -/
theorem State.skipIf_eq (s : State) (c : Bool) : s.skipIf c = s.setPc (if c then s.pc + 2#12 else s.pc) := by
  cases c <;> rfl

/-- All a key test can answer (R252). -/
theorem State.keyTest_cases (s : State) (k : Byte) :
    (∃ h : k.toNat < 16, s.keyTest k = some (s.keyRead ⟨k.toNat, h⟩, s)) ∨
    (15 < k.toNat ∧ s.params.keyOorPolicy = .draw ∧ s.keyTest k = some (s.nextBit, s.afterDraw)) ∨
    (15 < k.toNat ∧ s.params.keyOorPolicy = .mask ∧
      s.keyTest k = some (s.keyRead ⟨k.toNat % 16, Nat.mod_lt _ (by decide)⟩, s)) ∨
    (15 < k.toNat ∧ s.params.keyOorPolicy = .notPressed ∧ s.keyTest k = some (false, s)) ∨
    (15 < k.toNat ∧ s.params.keyOorPolicy = .fault ∧ s.keyTest k = none) := by
  have e : s.keyTest k =
      if h : k.toNat < 16 then some (s.keyRead ⟨k.toNat, h⟩, s)
      else match s.params.keyOorPolicy with
        | .draw => some (s.nextBit, s.afterDraw)
        | .mask => some (s.keyRead ⟨k.toNat % 16, Nat.mod_lt _ (by decide)⟩, s)
        | .notPressed => some (false, s)
        | .fault => none := rfl
  by_cases h : k.toNat < 16
  · exact .inl ⟨h, by rw [e, dif_pos h]⟩
  · have h' : 15 < k.toNat := by omega
    rw [e, dif_neg h]
    cases hp : s.params.keyOorPolicy <;> simp [h']

/-! ## The key poll -/

theorem State.firstPressed_eq (s : State) : s.firstPressed = (List.finRange 16).find? fun k => s.keyRead k := rfl

theorem State.firstPressed_eq_none {s : State} : s.firstPressed = none ↔ ∀ k, s.keyRead k = false := by
  simp [State.firstPressed_eq]

theorem State.firstPressed_eq_some {s : State} {k : KeyIdx} :
    s.firstPressed = some k ↔ s.keyRead k = true ∧ ∀ j, j < k → s.keyRead j = false := by
  rw [State.firstPressed_eq, List.find?_eq_some_iff_getElem]
  constructor
  · rintro ⟨hk, i, hi, hget, hbefore⟩
    have hik : i = (k : Nat) := by simpa using congrArg Fin.val hget
    refine ⟨hk, fun j hj => ?_⟩
    simpa using hbefore j (by rw [hik]; exact hj)
  · rintro ⟨hk, hbefore⟩
    refine ⟨hk, k, by simp, by simp, fun j hj => ?_⟩
    simpa using hbefore ⟨j, by omega⟩ hj

/-- The two outcomes of a key poll (R111). -/
theorem State.keyPoll_cases (s : State) (r : RegIdx) :
    ((∀ k, s.keyRead k = false) ∧ s.keyPoll r = s) ∨
    (∃ k, s.keyRead k = true ∧ (∀ j, j < k → s.keyRead j = false) ∧
      s.keyPoll r = (s.setReg r (BitVec.ofNat 8 k)).setKeyAwait none) := by
  have e : s.keyPoll r =
      match s.firstPressed with
      | some k => (s.setReg r (BitVec.ofNat 8 k)).setKeyAwait none
      | none => s := rfl
  rw [e]
  cases h : s.firstPressed with
  | none => exact .inl ⟨State.firstPressed_eq_none.1 h, rfl⟩
  | some k => exact .inr ⟨k, (State.firstPressed_eq_some.1 h).1, (State.firstPressed_eq_some.1 h).2, rfl⟩

/-! ## Register blocks -/

/-- A block store writes memory and nothing else. -/
theorem State.storeRegs_eq (s : State) : ∀ n, ∃ m, s.storeRegs n = { s with mem := m }
  | 0 => ⟨s.mem, rfl⟩
  | n + 1 => by
    obtain ⟨m, hm⟩ := s.storeRegs_eq n
    rw [State.storeRegs_succ, hm]
    exact ⟨_, rfl⟩

theorem State.wf_storeRegs {s : State} (h : s.mem.wf = true) : ∀ n, (s.storeRegs n).mem.wf = true
  | 0 => h
  | n + 1 => State.wf_memWrite (State.wf_storeRegs h n) _ _

/-- What a block store leaves in memory (R205). -/
theorem State.memRead_storeRegs {s : State} (h : s.mem.wf = true) :
    ∀ {n : Nat}, n ≤ 16 →
      (∀ k, k < n → (s.storeRegs n).memRead (s.dataAddr k) = s.reg (Fin.ofNat 16 k)) ∧
      (∀ a, (∀ k, k < n → a ≠ s.dataAddr k) → (s.storeRegs n).memRead a = s.memRead a)
  | 0, _ => ⟨fun k hk => absurd hk (Nat.not_lt_zero k), fun _ _ => rfl⟩
  | n + 1, hn => by
    obtain ⟨ihIn, ihOut⟩ := State.memRead_storeRegs h (n := n) (by omega)
    have hwf := State.wf_storeRegs h n
    obtain ⟨m, hm⟩ := s.storeRegs_eq n
    have haddr : (s.storeRegs n).dataAddr n = s.dataAddr n := State.dataAddr_congr (by rw [hm]) n
    have hreg : (s.storeRegs n).reg (Fin.ofNat 16 n) = s.reg (Fin.ofNat 16 n) := by rw [hm]; rfl
    constructor
    · intro k hk
      rw [State.storeRegs_succ, State.memRead_memWrite hwf, haddr, hreg]
      by_cases hkn : k = n
      · rw [hkn, if_pos rfl]
      · rw [if_neg (by rw [State.dataAddr_inj (by omega) (by omega)]; exact hkn)]
        exact ihIn k (by omega)
    · intro a ha
      rw [State.storeRegs_succ, State.memRead_memWrite hwf, haddr, if_neg (ha n (Nat.lt_succ_self n))]
      exact ihOut a fun k hk => ha k (by omega)

/-- A block load writes the register file and nothing else. -/
theorem State.loadRegs_eq (s : State) : ∀ n, ∃ v, s.loadRegs n = { s with v := v }
  | 0 => ⟨s.v, rfl⟩
  | n + 1 => by
    obtain ⟨v, hv⟩ := s.loadRegs_eq n
    rw [State.loadRegs_succ, hv]
    exact ⟨_, rfl⟩

/-- What a block load leaves in the registers (R206). -/
theorem State.reg_loadRegs (s : State) (q : RegIdx) :
    ∀ {n : Nat}, n ≤ 16 → (s.loadRegs n).reg q = if q.val < n then s.memRead (s.dataAddr q) else s.reg q
  | 0, _ => by simp [State.loadRegs, Ports.loadRegs]
  | n + 1, hn => by
    have ih := State.reg_loadRegs s q (n := n) (by omega)
    obtain ⟨v, hv⟩ := s.loadRegs_eq n
    have hread : (s.loadRegs n).memRead ((s.loadRegs n).dataAddr n) = s.memRead (s.dataAddr n) := by rw [hv]; rfl
    rw [State.loadRegs_succ, State.reg_setReg, ih, hread]
    have hq : q = Fin.ofNat 16 n ↔ q.val = n := by
      rw [Fin.ext_iff, Fin.val_ofNat, Nat.mod_eq_of_lt (by omega)]
    by_cases hqn : q.val = n
    · rw [if_pos (hq.2 hqn), if_pos (by omega), hqn]
    · rw [if_neg (fun h => hqn (hq.1 h))]
      by_cases hlt : q.val < n
      · rw [if_pos hlt, if_pos (by omega)]
      · rw [if_neg hlt, if_neg (by omega)]

/-! ## Flags and digits, as numbers -/

theorem toNat_carryFlag (a b : Byte) : (carryFlag a b).toNat = if a.toNat + b.toNat > 255 then 1 else 0 := by
  unfold carryFlag; split <;> rfl

theorem toNat_notBorrowFlag (a b : Byte) : (notBorrowFlag a b).toNat = if a.toNat < b.toNat then 0 else 1 := by
  unfold notBorrowFlag; split <;> rfl

theorem toNat_lowBitFlag (a : Byte) : (lowBitFlag a).toNat = a.toNat % 2 := by
  simp [lowBitFlag, BitVec.toNat_and, Nat.and_one_is_mod]

theorem toNat_highBitFlag (a : Byte) : (highBitFlag a).toNat = a.toNat / 128 := by
  have := a.isLt
  simp only [highBitFlag, BitVec.toNat_and, BitVec.toNat_ushiftRight, BitVec.toNat_ofNat, Nat.shiftRight_eq_div_pow,
    Nat.reducePow, Nat.reduceMod, Nat.and_one_is_mod]
  omega

theorem toNat_hundreds (a : Byte) : (hundreds a).toNat = a.toNat / 100 := by
  have := a.isLt
  simp only [hundreds, BitVec.toNat_ofNat]; omega

theorem toNat_tens (a : Byte) : (tens a).toNat = a.toNat / 10 % 10 := by
  simp only [tens, BitVec.toNat_ofNat]; omega

theorem toNat_ones (a : Byte) : (ones a).toNat = a.toNat % 10 := by
  simp only [ones, BitVec.toNat_ofNat]; omega

theorem toNat_glyphAddr (a : Byte) : (glyphAddr a).toNat = a.toNat * 5 := by
  have := a.isLt
  simp only [glyphAddr, BitVec.toNat_ofNat]; omega

/-! ## Fetch -/

/-- A fetch moves PC on by 2 and does nothing else. -/
theorem State.afterFetch_eq (s : State) : s.afterFetch = s.setPc (s.pc + 2#12) := by
  have e : s.afterFetch = s.setPc (s.pc + 1#12 + 1#12) := rfl
  rw [e, BitVec.add_assoc]; rfl

end Sys2Proof.Machine
end

