-- ==== Sys2Proof/Laws/Frames.lean ====
section
/-! SUPPORT. The frame of each update of State, and how frames combine. -/

namespace Sys2Proof.Machine

theorem Frame.refl (parts : List Part) (written : List RegIdx) (s : State) : Frame parts written s s := by
  constructor <;> intros <;> rfl

theorem Frame.mono {p p' : List Part} {w w' : List RegIdx} {s t : State} (hp : p ⊆ p') (hw : w ⊆ w')
    (h : Frame p w s t) : Frame p' w' s t where
  regs r hr := h.regs r fun hm => hr (hw hm)
  pc hn := h.pc fun hm => hn (hp hm)
  index hn := h.index fun hm => hn (hp hm)
  stack hn := h.stack fun hm => hn (hp hm)
  keyAwait hn := h.keyAwait fun hm => hn (hp hm)
  memory hn := h.memory fun hm => hn (hp hm)
  video hn := h.video fun hm => hn (hp hm)
  delay hn := h.delay fun hm => hn (hp hm)
  sound hn := h.sound fun hm => hn (hp hm)
  draws hn := h.draws fun hm => hn (hp hm)
  keys := h.keys
  params := h.params

theorem Frame.trans {p : List Part} {w : List RegIdx} {s t u : State} (h : Frame p w s t) (h' : Frame p w t u) :
    Frame p w s u where
  regs r hr := (h'.regs r hr).trans (h.regs r hr)
  pc hn := (h'.pc hn).trans (h.pc hn)
  index hn := (h'.index hn).trans (h.index hn)
  stack hn := (h'.stack hn).trans (h.stack hn)
  keyAwait hn := (h'.keyAwait hn).trans (h.keyAwait hn)
  memory hn a := (h'.memory hn a).trans (h.memory hn a)
  video hn x y := (h'.video hn x y).trans (h.video hn x y)
  delay hn := (h'.delay hn).trans (h.delay hn)
  sound hn := (h'.sound hn).trans (h.sound hn)
  draws hn := (h'.draws hn).trans (h.draws hn)
  keys k := (h'.keys k).trans (h.keys k)
  params := h'.params.trans h.params

theorem frame_setReg (s : State) (r : RegIdx) (w : Byte) : Frame [] [r] s (s.setReg r w) := by
  constructor
  case regs =>
    intro q hq
    exact State.reg_setReg_ne (by simpa using hq)
  all_goals first | rfl | (intros; rfl)

theorem frame_setRegFlag (s : State) (x : RegIdx) (w f : Byte) : Frame [] [x, VF] s (s.setRegFlag x w f) :=
  ((frame_setReg s x w).mono (by simp) (by simp)).trans ((frame_setReg _ VF f).mono (by simp) (by simp))

theorem frame_setPc (s : State) (a : Addr) : Frame [.pc] [] s (s.setPc a) := by
  constructor
  case pc => intro h; simp at h
  all_goals first | rfl | (intros; rfl)

theorem frame_skipIf (s : State) (c : Bool) : Frame [.pc] [] s (s.skipIf c) := by
  rw [State.skipIf_eq]
  exact frame_setPc s _

theorem frame_setI (s : State) (a : Addr) : Frame [.index] [] s (s.setI a) := by
  constructor
  case index => intro h; simp at h
  all_goals first | rfl | (intros; rfl)

theorem frame_setStack (s : State) (l : List Addr) : Frame [.stack] [] s (s.setStack l) := by
  constructor
  case stack => intro h; simp at h
  all_goals first | rfl | (intros; rfl)

theorem frame_setKeyAwait (s : State) (k : Option RegIdx) : Frame [.keyAwait] [] s (s.setKeyAwait k) := by
  constructor
  case keyAwait => intro h; simp at h
  all_goals first | rfl | (intros; rfl)

theorem frame_memWrite (s : State) (a : Addr) (w : Byte) : Frame [.memory] [] s (s.memWrite a w) := by
  constructor
  case memory => intro h; simp at h
  all_goals first | rfl | (intros; rfl)

theorem frame_screenClear (s : State) : Frame [.video] [] s s.screenClear := by
  constructor
  case video => intro h; simp at h
  all_goals first | rfl | (intros; rfl)

theorem frame_pixelWrite (s : State) (x y : Nat) (b : Bool) : Frame [.video] [] s (s.pixelWrite x y b) := by
  constructor
  case video => intro h; simp at h
  all_goals first | rfl | (intros; rfl)

theorem frame_delayWrite (s : State) (w : Byte) : Frame [.delay] [] s (s.delayWrite w) := by
  constructor
  case delay => intro h; simp at h
  all_goals first | rfl | (intros; rfl)

theorem frame_soundWrite (s : State) (w : Byte) : Frame [.sound] [] s (s.soundWrite w) := by
  constructor
  case sound => intro h; simp at h
  all_goals first | rfl | (intros; rfl)

theorem frame_afterDraw (s : State) : Frame [.draws] [] s s.afterDraw := by
  constructor
  case draws => intro h; simp at h
  all_goals first | rfl | (intros; rfl)

theorem frame_storeRegs (s : State) (n : Nat) : Frame [.memory] [] s (s.storeRegs n) := by
  obtain ⟨m, hm⟩ := s.storeRegs_eq n
  rw [hm]
  constructor
  case memory => intro h; simp at h
  all_goals first | rfl | (intros; rfl)

theorem frame_loadRegs (s : State) {n : Nat} (hn : n ≤ 16) :
    Frame [] ((List.finRange 16).filter (·.val < n)) s (s.loadRegs n) := by
  have hregs := fun q => s.reg_loadRegs q hn
  obtain ⟨v, hv⟩ := s.loadRegs_eq n
  rw [hv] at hregs ⊢
  constructor
  case regs =>
    intro q hq
    rw [hregs q, if_neg]
    simpa using hq
  all_goals first | rfl | (intros; rfl)

end Sys2Proof.Machine
end

