-- ==== Sys2Proof/Laws/Display.lean ====
section
/-! SUPPORT. What drawing does (44_display.md R232): it changes pixels and VF only; every covered pixel is toggled once;
VF is set exactly when a covered pixel was set. -/

namespace Sys2Proof.Machine

/-! The engine's drawing loops (Machine/Display.lean) at State's ports, in State's own words. -/

theorem State.togglePixel_eq (s : State) (px py : Nat) :
    s.togglePixel px py =
      if s.pixelRead px py then (s.pixelWrite px py (!s.pixelRead px py)).setReg VF 1#8
      else s.pixelWrite px py (!s.pixelRead px py) := rfl
theorem State.drawCols_succ (s : State) (b : Byte) (vx py n : Nat) :
    s.drawCols b vx py (n + 1) =
      if b.getLsbD (7 - n) then (s.drawCols b vx py n).togglePixel (vx + n) py else s.drawCols b vx py n := rfl
theorem State.drawRows_succ (s : State) (vx vy n : Nat) :
    s.drawRows vx vy (n + 1) =
      (s.drawRows vx vy n).drawCols ((s.drawRows vx vy n).memRead ((s.drawRows vx vy n).dataAddr n)) vx (vy + n) 8 := rfl

/-- A set bit among the first n columns of a sprite row falls on the pixel (x, y), coordinates wrapping. -/
def ColCovers (b : Byte) (vx py n x y : Nat) : Prop :=
  ∃ col, col < n ∧ b.getLsbD (7 - col) = true ∧ x % 64 = (vx + col) % 64 ∧ y % 32 = py % 32

/-- A set bit among the first n rows of a sprite falls on the pixel (x, y), coordinates wrapping. -/
def RowCovers (bytes : Nat → Byte) (vx vy n x y : Nat) : Prop :=
  ∃ row, row < n ∧ ColCovers (bytes row) vx (vy + row) 8 x y

theorem frame_togglePixel (s : State) (px py : Nat) : Frame [.video] [VF] s (s.togglePixel px py) := by
  have hw := (frame_pixelWrite s px py (!s.pixelRead px py)).mono (p' := [.video]) (w' := [VF]) (by simp) (by simp)
  rw [State.togglePixel_eq]
  split
  · exact hw.trans ((frame_setReg _ VF 1#8).mono (by simp) (by simp))
  · exact hw

theorem frame_drawCols (s : State) (b : Byte) (vx py : Nat) :
    ∀ n, Frame [.video] [VF] s (s.drawCols b vx py n)
  | 0 => Frame.refl _ _ s
  | n + 1 => by
    rw [State.drawCols_succ]
    split
    · exact (frame_drawCols s b vx py n).trans (frame_togglePixel _ _ _)
    · exact frame_drawCols s b vx py n

theorem frame_drawRows (s : State) (vx vy : Nat) : ∀ n, Frame [.video] [VF] s (s.drawRows vx vy n)
  | 0 => Frame.refl _ _ s
  | n + 1 => (frame_drawRows s vx vy n).trans (frame_drawCols _ _ _ _ _)

/-- Drawing keeps the memory and the keys as they are, as data. -/
theorem State.mem_keys_drawCols (s : State) (b : Byte) (vx py : Nat) :
    ∀ n, (s.drawCols b vx py n).mem = s.mem ∧ (s.drawCols b vx py n).keys = s.keys
  | 0 => ⟨rfl, rfl⟩
  | n + 1 => by
    have ih := s.mem_keys_drawCols b vx py n
    rw [State.drawCols_succ, State.togglePixel_eq]
    split
    · split <;> exact ih
    · exact ih

theorem State.mem_keys_drawRows (s : State) (vx vy : Nat) :
    ∀ n, (s.drawRows vx vy n).mem = s.mem ∧ (s.drawRows vx vy n).keys = s.keys
  | 0 => ⟨rfl, rfl⟩
  | n + 1 => by
    have ih := s.mem_keys_drawRows vx vy n
    have h := (s.drawRows vx vy n).mem_keys_drawCols
      ((s.drawRows vx vy n).memRead ((s.drawRows vx vy n).dataAddr n)) vx (vy + n) 8
    exact ⟨h.1.trans ih.1, h.2.trans ih.2⟩

theorem State.pixelRead_togglePixel (s : State) (px py x y : Nat) :
    (s.togglePixel px py).pixelRead x y =
      if x % 64 = px % 64 ∧ y % 32 = py % 32 then !s.pixelRead x y else s.pixelRead x y := by
  have hw : (s.togglePixel px py).pixelRead x y = (s.pixelWrite px py (!s.pixelRead px py)).pixelRead x y := by
    rw [State.togglePixel_eq]; split <;> rfl
  rw [hw, State.pixelRead_pixelWrite]
  split
  · next h =>
    have : s.pixelRead x y = s.pixelRead px py := by
      rw [State.pixelRead_eq, State.pixelRead_eq, ← Video.read_mod, h.1, h.2, Video.read_mod]
    rw [this]
  · rfl

theorem State.flag_togglePixel (s : State) (px py : Nat) :
    (s.togglePixel px py).reg VF = if s.pixelRead px py then 1#8 else s.reg VF := by
  rw [State.togglePixel_eq]
  split
  · exact State.reg_setReg_same _ _ _
  · rfl

/-- Pixels at coordinates equal mod 64 and mod 32 are the same pixel (R59). -/
theorem State.pixelRead_congr (s : State) {x y x' y' : Nat} (hx : x % 64 = x' % 64) (hy : y % 32 = y' % 32) :
    s.pixelRead x y = s.pixelRead x' y' := by
  rw [State.pixelRead_eq, State.pixelRead_eq, ← Video.read_mod, hx, hy, Video.read_mod]

/-- Each covered pixel of a sprite row is toggled once, every other pixel is left. -/
theorem State.pixelRead_drawCols (s : State) (b : Byte) (vx py x y : Nat) :
    ∀ {n : Nat}, n ≤ 8 →
      (ColCovers b vx py n x y → (s.drawCols b vx py n).pixelRead x y = !s.pixelRead x y) ∧
      (¬ColCovers b vx py n x y → (s.drawCols b vx py n).pixelRead x y = s.pixelRead x y)
  | 0, _ => ⟨fun ⟨_, h, _⟩ => absurd h (Nat.not_lt_zero _), fun _ => rfl⟩
  | n + 1, hn => by
    obtain ⟨ihIn, ihOut⟩ := s.pixelRead_drawCols b vx py x y (n := n) (by omega)
    rw [State.drawCols_succ]
    by_cases hbit : b.getLsbD (7 - n) = true
    · rw [if_pos hbit, State.pixelRead_togglePixel]
      by_cases hhit : x % 64 = (vx + n) % 64 ∧ y % 32 = py % 32
      · have hnot : ¬ColCovers b vx py n x y := by
          rintro ⟨col, hcol, -, hx, -⟩
          omega
        rw [if_pos hhit, ihOut hnot]
        exact ⟨fun _ => rfl, fun h => absurd ⟨n, Nat.lt_succ_self n, hbit, hhit⟩ h⟩
      · rw [if_neg hhit]
        constructor
        · rintro ⟨col, hcol, hb, hxy⟩
          have : col ≠ n := fun h => hhit (h ▸ hxy)
          exact ihIn ⟨col, by omega, hb, hxy⟩
        · exact fun h => ihOut fun ⟨col, hcol, hb, hxy⟩ => h ⟨col, by omega, hb, hxy⟩
    · rw [if_neg hbit]
      constructor
      · rintro ⟨col, hcol, hb, hxy⟩
        have : col ≠ n := fun h => hbit (h ▸ hb)
        exact ihIn ⟨col, by omega, hb, hxy⟩
      · exact fun h => ihOut fun ⟨col, hcol, hb, hxy⟩ => h ⟨col, by omega, hb, hxy⟩

/-- VF after drawing a sprite row: 1 if a covered pixel was set, else as before. -/
theorem State.flag_drawCols (s : State) (b : Byte) (vx py : Nat) :
    ∀ {n : Nat}, n ≤ 8 →
      ((∃ x y, ColCovers b vx py n x y ∧ s.pixelRead x y = true) → (s.drawCols b vx py n).reg VF = 1#8) ∧
      ((∀ x y, ColCovers b vx py n x y → s.pixelRead x y = false) → (s.drawCols b vx py n).reg VF = s.reg VF)
  | 0, _ => ⟨fun ⟨_, _, ⟨_, h, _⟩, _⟩ => absurd h (Nat.not_lt_zero _), fun _ => rfl⟩
  | n + 1, hn => by
    obtain ⟨ihHit, ihMiss⟩ := s.flag_drawCols b vx py (n := n) (by omega)
    rw [State.drawCols_succ]
    by_cases hbit : b.getLsbD (7 - n) = true
    · have hnot : ¬ColCovers b vx py n (vx + n) py := by
        rintro ⟨col, hcol, -, hx, -⟩
        omega
      have hold := (s.pixelRead_drawCols b vx py (vx + n) py (n := n) (by omega)).2 hnot
      rw [if_pos hbit, State.flag_togglePixel, hold]
      constructor
      · rintro ⟨x, y, ⟨col, hcol, hb, hx, hy⟩, hset⟩
        by_cases hcn : col = n
        · subst hcn
          rw [if_pos ((s.pixelRead_congr hx hy).symm.trans hset)]
        · split
          · rfl
          · exact ihHit ⟨x, y, ⟨col, by omega, hb, hx, hy⟩, hset⟩
      · intro h
        rw [if_neg (by rw [h _ _ ⟨n, Nat.lt_succ_self n, hbit, rfl, rfl⟩]; decide)]
        exact ihMiss fun x y ⟨col, hcol, hb, hxy⟩ => h x y ⟨col, by omega, hb, hxy⟩
    · rw [if_neg hbit]
      constructor
      · rintro ⟨x, y, ⟨col, hcol, hb, hxy⟩, hset⟩
        have : col ≠ n := fun h => hbit (h ▸ hb)
        exact ihHit ⟨x, y, ⟨col, by omega, hb, hxy⟩, hset⟩
      · exact fun h => ihMiss fun x y ⟨col, hcol, hb, hxy⟩ => h x y ⟨col, by omega, hb, hxy⟩

/-- The byte of the sprite's row n is still the one in memory when that row is drawn. -/
theorem State.rowByte_drawRows (s : State) (vx vy n : Nat) :
    (s.drawRows vx vy n).memRead ((s.drawRows vx vy n).dataAddr n) = s.memRead (s.dataAddr n) := by
  have h := frame_drawRows s vx vy n
  rw [h.memory (by simp), State.dataAddr_congr (h.index (by simp))]

/-- Each covered pixel of a sprite is toggled once, every other pixel is left. -/
theorem State.pixelRead_drawRows (s : State) (vx vy x y : Nat) :
    ∀ {n : Nat}, n ≤ 32 →
      (RowCovers (fun row => s.memRead (s.dataAddr row)) vx vy n x y →
        (s.drawRows vx vy n).pixelRead x y = !s.pixelRead x y) ∧
      (¬RowCovers (fun row => s.memRead (s.dataAddr row)) vx vy n x y →
        (s.drawRows vx vy n).pixelRead x y = s.pixelRead x y)
  | 0, _ => ⟨fun ⟨_, h, _⟩ => absurd h (Nat.not_lt_zero _), fun _ => rfl⟩
  | n + 1, hn => by
    obtain ⟨ihIn, ihOut⟩ := s.pixelRead_drawRows vx vy x y (n := n) (by omega)
    obtain ⟨hIn, hOut⟩ := (s.drawRows vx vy n).pixelRead_drawCols (s.memRead (s.dataAddr n)) vx (vy + n) x y
      (Nat.le_refl 8)
    have hstep : s.drawRows vx vy (n + 1) =
        (s.drawRows vx vy n).drawCols (s.memRead (s.dataAddr n)) vx (vy + n) 8 := by
      rw [State.drawRows_succ, State.rowByte_drawRows]
    rw [hstep]
    by_cases hcov : ColCovers (s.memRead (s.dataAddr n)) vx (vy + n) 8 x y
    · have hnot : ¬RowCovers (fun row => s.memRead (s.dataAddr row)) vx vy n x y := by
        rintro ⟨row, hrow, col, hcol, -, -, hy⟩
        obtain ⟨_, _, _, _, hy'⟩ := hcov
        omega
      rw [hIn hcov, ihOut hnot]
      exact ⟨fun _ => rfl, fun h => absurd ⟨n, Nat.lt_succ_self n, hcov⟩ h⟩
    · rw [hOut hcov]
      constructor
      · rintro ⟨row, hrow, hc⟩
        have : row ≠ n := fun h => hcov (h ▸ hc)
        exact ihIn ⟨row, by omega, hc⟩
      · exact fun h => ihOut fun ⟨row, hrow, hc⟩ => h ⟨row, by omega, hc⟩

/-- VF after drawing a sprite: 1 if a covered pixel was set, else as before. -/
theorem State.flag_drawRows (s : State) (vx vy : Nat) :
    ∀ {n : Nat}, n ≤ 32 →
      ((∃ x y, RowCovers (fun row => s.memRead (s.dataAddr row)) vx vy n x y ∧ s.pixelRead x y = true) →
        (s.drawRows vx vy n).reg VF = 1#8) ∧
      ((∀ x y, RowCovers (fun row => s.memRead (s.dataAddr row)) vx vy n x y → s.pixelRead x y = false) →
        (s.drawRows vx vy n).reg VF = s.reg VF)
  | 0, _ => ⟨fun ⟨_, _, ⟨_, h, _⟩, _⟩ => absurd h (Nat.not_lt_zero _), fun _ => rfl⟩
  | n + 1, hn => by
    obtain ⟨ihHit, ihMiss⟩ := s.flag_drawRows vx vy (n := n) (by omega)
    obtain ⟨hHit, hMiss⟩ := (s.drawRows vx vy n).flag_drawCols (s.memRead (s.dataAddr n)) vx (vy + n) (Nat.le_refl 8)
    have hstep : s.drawRows vx vy (n + 1) =
        (s.drawRows vx vy n).drawCols (s.memRead (s.dataAddr n)) vx (vy + n) 8 := by
      rw [State.drawRows_succ, State.rowByte_drawRows]
    -- an earlier row never covers a pixel of row n
    have hsame : ∀ x y, ColCovers (s.memRead (s.dataAddr n)) vx (vy + n) 8 x y →
        (s.drawRows vx vy n).pixelRead x y = s.pixelRead x y := by
      intro x y hc
      refine (s.pixelRead_drawRows vx vy x y (n := n) (by omega)).2 ?_
      rintro ⟨row, hrow, col, hcol, -, -, hy⟩
      obtain ⟨_, _, _, _, hy'⟩ := hc
      omega
    rw [hstep]
    constructor
    · rintro ⟨x, y, ⟨row, hrow, hc⟩, hset⟩
      by_cases hany : ∃ x y, ColCovers (s.memRead (s.dataAddr n)) vx (vy + n) 8 x y ∧
          (s.drawRows vx vy n).pixelRead x y = true
      · exact hHit hany
      · have hrn : row ≠ n := fun h => hany ⟨x, y, h ▸ hc, (hsame x y (h ▸ hc)).trans hset⟩
        rw [hMiss fun x y hc' => by
          cases hb : (s.drawRows vx vy n).pixelRead x y
          · rfl
          · exact absurd ⟨x, y, hc', hb⟩ hany]
        exact ihHit ⟨x, y, ⟨row, by omega, hc⟩, hset⟩
    · intro h
      rw [hMiss fun x y hc => (hsame x y hc).trans (h x y ⟨n, Nat.lt_succ_self n, hc⟩)]
      exact ihMiss fun x y ⟨row, hrow, hc⟩ => h x y ⟨row, by omega, hc⟩

end Sys2Proof.Machine
end

