-- ==== Sys2Proof/Laws/Encoding.lean ====
section
/-! SUPPORT. The fields of an assembled word, and a word from its fields and from its bytes. -/

namespace Sys2Proof

/-! ## The bits of an assembled word -/

theorem getLsbD_mkNNN (a : Nibble) (nnn : Addr) (k : Nat) :
    (mkNNN a nnn).getLsbD k = if k < 12 then nnn.getLsbD k else a.getLsbD (k - 12) := by
  have h := BitVec.getLsbD_append (x := a) (y := nnn) (i := k)
  simpa only [mkNNN, Bool.cond_decide] using h

theorem mkXNN_eq_mkNNN (a : Nibble) (x : RegIdx) (nn : Byte) : mkXNN a x nn = mkNNN a (regField x ++ nn) := rfl

theorem mkXYN_eq_mkXNN (a : Nibble) (x y : RegIdx) (n : Nibble) : mkXYN a x y n = mkXNN a x (regField y ++ n) := rfl

theorem getLsbD_mkXNN (a : Nibble) (x : RegIdx) (nn : Byte) (k : Nat) :
    (mkXNN a x nn).getLsbD k =
      if k < 8 then nn.getLsbD k else if k < 12 then (regField x).getLsbD (k - 8) else a.getLsbD (k - 12) := by
  have h : BitVec.getLsbD (w := 12) (regField x ++ nn) k = if k < 8 then nn.getLsbD k else (regField x).getLsbD (k - 8) := by
    have := BitVec.getLsbD_append (x := regField x) (y := nn) (i := k)
    simpa only [Bool.cond_decide] using this
  rw [mkXNN_eq_mkNNN, getLsbD_mkNNN, h]
  split_ifs <;> first | rfl | omega

theorem getLsbD_mkXYN (a : Nibble) (x y : RegIdx) (n : Nibble) (k : Nat) :
    (mkXYN a x y n).getLsbD k =
      if k < 4 then n.getLsbD k else if k < 8 then (regField y).getLsbD (k - 4)
      else if k < 12 then (regField x).getLsbD (k - 8) else a.getLsbD (k - 12) := by
  have h : BitVec.getLsbD (w := 8) (regField y ++ n) k = if k < 4 then n.getLsbD k else (regField y).getLsbD (k - 4) := by
    have := BitVec.getLsbD_append (x := regField y) (y := n) (i := k)
    simpa only [Bool.cond_decide] using this
  rw [mkXYN_eq_mkXNN, getLsbD_mkXNN, h]
  split_ifs <;> first | rfl | omega

/-! ## Fields of n0 ++ NNN -/

@[simp] theorem fieldN0_mkNNN (a : Nibble) (nnn : Addr) : fieldN0 (mkNNN a nnn) = a := by
  ext k hk
  simp [fieldN0, getLsbD_mkNNN, hk]
@[simp] theorem fieldNNN_mkNNN (a : Nibble) (nnn : Addr) : fieldNNN (mkNNN a nnn) = nnn := by
  ext k hk
  simp [fieldNNN, getLsbD_mkNNN, hk]

/-! ## Fields of n0 ++ X ++ NN -/

@[simp] theorem fieldN0_mkXNN (a : Nibble) (x : RegIdx) (nn : Byte) : fieldN0 (mkXNN a x nn) = a := by
  rw [mkXNN_eq_mkNNN, fieldN0_mkNNN]
@[simp] theorem fieldX_mkXNN (a : Nibble) (x : RegIdx) (nn : Byte) : fieldX (mkXNN a x nn) = x := by
  have h : (mkXNN a x nn).extractLsb' 8 4 = regField x := by
    ext k hk
    simp [getLsbD_mkXNN, hk, show 8 + k < 12 by omega]
  rw [fieldX, h]; rfl
@[simp] theorem fieldNN_mkXNN (a : Nibble) (x : RegIdx) (nn : Byte) : fieldNN (mkXNN a x nn) = nn := by
  ext k hk
  simp [fieldNN, getLsbD_mkXNN, hk]

/-! ## Fields of n0 ++ X ++ Y ++ N -/

@[simp] theorem fieldN0_mkXYN (a : Nibble) (x y : RegIdx) (n : Nibble) : fieldN0 (mkXYN a x y n) = a := by
  rw [mkXYN_eq_mkXNN, fieldN0_mkXNN]
@[simp] theorem fieldX_mkXYN (a : Nibble) (x y : RegIdx) (n : Nibble) : fieldX (mkXYN a x y n) = x := by
  rw [mkXYN_eq_mkXNN, fieldX_mkXNN]
@[simp] theorem fieldY_mkXYN (a : Nibble) (x y : RegIdx) (n : Nibble) : fieldY (mkXYN a x y n) = y := by
  have h : (mkXYN a x y n).extractLsb' 4 4 = regField y := by
    ext k hk
    simp [getLsbD_mkXYN, hk, show 4 + k < 8 by omega]
  rw [fieldY, h]; rfl
@[simp] theorem fieldN_mkXYN (a : Nibble) (x y : RegIdx) (n : Nibble) : fieldN (mkXYN a x y n) = n := by
  ext k hk
  simp [fieldN, getLsbD_mkXYN, hk]

/-! ## A word from its fields and from its bytes -/

@[simp] theorem regField_fieldX (op : Opcode) : regField (fieldX op) = op.extractLsb' 8 4 := rfl
@[simp] theorem regField_fieldY (op : Opcode) : regField (fieldY op) = op.extractLsb' 4 4 := rfl

theorem mkNNN_of_fields (op : Opcode) : mkNNN (fieldN0 op) (fieldNNN op) = op := by
  refine BitVec.eq_of_getLsbD_eq fun k hk => ?_
  rw [getLsbD_mkNNN]
  split
  · next h => simp [fieldNNN, h]
  · next h => simp [fieldN0, show k - 12 < 4 by omega, show 12 + (k - 12) = k by omega]

theorem mkXNN_of_fields (op : Opcode) : mkXNN (fieldN0 op) (fieldX op) (fieldNN op) = op := by
  refine BitVec.eq_of_getLsbD_eq fun k hk => ?_
  rw [getLsbD_mkXNN]
  split
  · next h => simp [fieldNN, h]
  · split
    · simp [show k - 8 < 4 by omega, show 8 + (k - 8) = k by omega]
    · simp [fieldN0, show k - 12 < 4 by omega, show 12 + (k - 12) = k by omega]

theorem mkXYN_of_fields (op : Opcode) : mkXYN (fieldN0 op) (fieldX op) (fieldY op) (fieldN op) = op := by
  refine BitVec.eq_of_getLsbD_eq fun k hk => ?_
  rw [getLsbD_mkXYN]
  split
  · next h => simp [fieldN, h]
  · split
    · simp [show k - 4 < 4 by omega, show 4 + (k - 4) = k by omega]
    · split
      · simp [show k - 8 < 4 by omega, show 8 + (k - 8) = k by omega]
      · simp [fieldN0, show k - 12 < 4 by omega, show 12 + (k - 12) = k by omega]

/-- A word is the word of its two bytes. -/
@[simp] theorem opcodeOfBytes_hi_lo (op : Opcode) : opcodeOfBytes (opcodeHi op) (opcodeLo op) = op := by
  refine BitVec.eq_of_getLsbD_eq fun k hk => ?_
  have h := BitVec.getLsbD_append (x := opcodeHi op) (y := opcodeLo op) (i := k)
  refine h.trans ?_
  by_cases hk8 : k < 8
  · simp [opcodeLo, hk8]
  · simp [opcodeHi, hk8, show k - 8 < 8 by omega, show 8 + (k - 8) = k by omega]

theorem toNat_opcodeOfBytes (hi lo : Byte) : (opcodeOfBytes hi lo).toNat = hi.toNat * 256 + lo.toNat := by
  have h : (opcodeOfBytes hi lo).toNat = hi.toNat <<< 8 ||| lo.toNat := BitVec.toNat_append hi lo
  rw [h, ← Nat.shiftLeft_add_eq_or_of_lt lo.isLt, Nat.shiftLeft_eq]

/-! ## The decoder, one major opcode at a time (R85) -/

/-- A word whose major opcode is not 0 is neither 0x00E0 nor 0x00EE. -/
theorem not_fixed_word {w : Opcode} (h : fieldN0 w ≠ 0#4) : w ≠ 0x00E0#16 ∧ w ≠ 0x00EE#16 :=
  ⟨fun e => h (by rw [e]; rfl), fun e => h (by rw [e]; rfl)⟩

theorem decode_n0_0 {w : Opcode} (h : fieldN0 w = 0x0#4) (he0 : w ≠ 0x00E0#16) (hee : w ≠ 0x00EE#16) :
    decode w = .ok (.sys (fieldNNN w)) := by
  simp only [decode, if_neg he0, if_neg hee, h, ↓reduceIte]

theorem decode_n0_1 {w : Opcode} (h : fieldN0 w = 0x1#4) : decode w = .ok (.jp (fieldNNN w)) := by
  obtain ⟨he0, hee⟩ := not_fixed_word (w := w) (by rw [h]; decide)
  simp [decode, if_neg he0, if_neg hee, h]

theorem decode_n0_2 {w : Opcode} (h : fieldN0 w = 0x2#4) : decode w = .ok (.call (fieldNNN w)) := by
  obtain ⟨he0, hee⟩ := not_fixed_word (w := w) (by rw [h]; decide)
  simp [decode, if_neg he0, if_neg hee, h]

theorem decode_n0_3 {w : Opcode} (h : fieldN0 w = 0x3#4) : decode w = .ok (.seImm (fieldX w) (fieldNN w)) := by
  obtain ⟨he0, hee⟩ := not_fixed_word (w := w) (by rw [h]; decide)
  simp [decode, if_neg he0, if_neg hee, h]

theorem decode_n0_4 {w : Opcode} (h : fieldN0 w = 0x4#4) : decode w = .ok (.sneImm (fieldX w) (fieldNN w)) := by
  obtain ⟨he0, hee⟩ := not_fixed_word (w := w) (by rw [h]; decide)
  simp [decode, if_neg he0, if_neg hee, h]

theorem decode_n0_5 {w : Opcode} (h : fieldN0 w = 0x5#4) : decode w = if fieldN w = 0x0#4 then .ok (.seReg (fieldX w) (fieldY w)) else .error .word5xyn := by
  obtain ⟨he0, hee⟩ := not_fixed_word (w := w) (by rw [h]; decide)
  simp [decode, if_neg he0, if_neg hee, h]

theorem decode_n0_6 {w : Opcode} (h : fieldN0 w = 0x6#4) : decode w = .ok (.ldImm (fieldX w) (fieldNN w)) := by
  obtain ⟨he0, hee⟩ := not_fixed_word (w := w) (by rw [h]; decide)
  simp [decode, if_neg he0, if_neg hee, h]

theorem decode_n0_7 {w : Opcode} (h : fieldN0 w = 0x7#4) : decode w = .ok (.addImm (fieldX w) (fieldNN w)) := by
  obtain ⟨he0, hee⟩ := not_fixed_word (w := w) (by rw [h]; decide)
  simp [decode, if_neg he0, if_neg hee, h]

theorem decode_n0_8 {w : Opcode} (h : fieldN0 w = 0x8#4) : decode w = decode8 (fieldX w) (fieldY w) (fieldN w) := by
  obtain ⟨he0, hee⟩ := not_fixed_word (w := w) (by rw [h]; decide)
  simp [decode, if_neg he0, if_neg hee, h]

theorem decode_n0_9 {w : Opcode} (h : fieldN0 w = 0x9#4) : decode w = if fieldN w = 0x0#4 then .ok (.sneReg (fieldX w) (fieldY w)) else .error .word9xyn := by
  obtain ⟨he0, hee⟩ := not_fixed_word (w := w) (by rw [h]; decide)
  simp [decode, if_neg he0, if_neg hee, h]

theorem decode_n0_A {w : Opcode} (h : fieldN0 w = 0xA#4) : decode w = .ok (.ldI (fieldNNN w)) := by
  obtain ⟨he0, hee⟩ := not_fixed_word (w := w) (by rw [h]; decide)
  simp [decode, if_neg he0, if_neg hee, h]

theorem decode_n0_B {w : Opcode} (h : fieldN0 w = 0xB#4) : decode w = .ok (.jpV0 (fieldNNN w)) := by
  obtain ⟨he0, hee⟩ := not_fixed_word (w := w) (by rw [h]; decide)
  simp [decode, if_neg he0, if_neg hee, h]

theorem decode_n0_C {w : Opcode} (h : fieldN0 w = 0xC#4) : decode w = .ok (.rnd (fieldX w) (fieldNN w)) := by
  obtain ⟨he0, hee⟩ := not_fixed_word (w := w) (by rw [h]; decide)
  simp [decode, if_neg he0, if_neg hee, h]

theorem decode_n0_D {w : Opcode} (h : fieldN0 w = 0xD#4) : decode w = .ok (.drw (fieldX w) (fieldY w) (fieldN w)) := by
  obtain ⟨he0, hee⟩ := not_fixed_word (w := w) (by rw [h]; decide)
  simp [decode, if_neg he0, if_neg hee, h]

theorem decode_n0_E {w : Opcode} (h : fieldN0 w = 0xE#4) : decode w = decodeE (fieldX w) (fieldNN w) := by
  obtain ⟨he0, hee⟩ := not_fixed_word (w := w) (by rw [h]; decide)
  simp [decode, if_neg he0, if_neg hee, h]

theorem decode_n0_F {w : Opcode} (h : fieldN0 w = 0xF#4) : decode w = decodeF (fieldX w) (fieldNN w) := by
  obtain ⟨he0, hee⟩ := not_fixed_word (w := w) (by rw [h]; decide)
  simp [decode, if_neg he0, if_neg hee, h]

/-- The sixteen values of a nibble. -/
theorem nibble_cases (n : Nibble) :
    n = 0x0#4 ∨ n = 0x1#4 ∨ n = 0x2#4 ∨ n = 0x3#4 ∨ n = 0x4#4 ∨ n = 0x5#4 ∨ n = 0x6#4 ∨ n = 0x7#4 ∨ n = 0x8#4 ∨
    n = 0x9#4 ∨ n = 0xA#4 ∨ n = 0xB#4 ∨ n = 0xC#4 ∨ n = 0xD#4 ∨ n = 0xE#4 ∨ n = 0xF#4 := by
  have := n.isLt
  simp only [← BitVec.toNat_inj, BitVec.toNat_ofNat]
  omega

/-! ## Fields, as numbers -/

theorem toNat_fieldN0 (w : Opcode) : (fieldN0 w).toNat = w.toNat / 4096 := by
  have := w.isLt
  simp only [fieldN0, BitVec.extractLsb'_toNat, Nat.shiftRight_eq_div_pow]
  omega

theorem toNat_fieldN (w : Opcode) : (fieldN w).toNat = w.toNat % 16 := by
  simp [fieldN, BitVec.extractLsb'_toNat]

theorem toNat_fieldNN (w : Opcode) : (fieldNN w).toNat = w.toNat % 256 := by
  simp [fieldNN, BitVec.extractLsb'_toNat]

end Sys2Proof
end

