-- ==== Sys2Proof/Laws/Step.lean ====
section
/-! SUPPORT. What a step, a word's execution and a run can be, said once each. -/

namespace Sys2Proof.Machine

theorem step_waiting {s : State} {r : RegIdx} (h : s.keyAwait = some r) : step s = .next (s.keyPoll r) := by
  rw [step, h]

theorem step_fetching {s : State} (h : s.keyAwait = none) : step s = execWord s.fetchWord (s.setPc (s.pc + 2#12)) := by
  rw [step, h, State.afterFetch_eq]

theorem execWord_ok {op : Opcode} {i : Instr} (h : decode op = .ok i) (s : State) : execWord op s = exec i s := by
  rw [execWord, h]

theorem execWord_error {op : Opcode} {e : Unmatched} (h : decode op = .error e) (s : State) :
    execWord op s = .next s := by
  rw [execWord, h]; rfl

/-- The three forms of a step (R110): a key poll, an instruction, an unmatched word. -/
theorem step_forms (s : State) :
    (∃ r, s.keyAwait = some r ∧ step s = .next (s.keyPoll r)) ∨
    (∃ i, s.keyAwait = none ∧ decode s.fetchWord = .ok i ∧ step s = exec i (s.setPc (s.pc + 2#12))) ∨
    (∃ e, s.keyAwait = none ∧ decode s.fetchWord = .error e ∧ step s = .next (s.setPc (s.pc + 2#12))) := by
  cases hk : s.keyAwait with
  | some r => exact .inl ⟨r, rfl, step_waiting hk⟩
  | none =>
    cases hd : decode s.fetchWord with
    | ok i => exact .inr (.inl ⟨i, rfl, rfl, (step_fetching hk).trans (execWord_ok hd _)⟩)
    | error e => exact .inr (.inr ⟨e, rfl, rfl, (step_fetching hk).trans (execWord_error hd _)⟩)

/-- RET's two outcomes (R131). -/
theorem execRet_cases (s : State) :
    (s.stack = [] ∧ execRet s = .next s) ∨
    (∃ a rest, s.stack = a :: rest ∧ execRet s = .next ((s.setStack rest).setPc a)) := by
  have e : execRet s = .next (match s.stack with
      | [] => s
      | a :: rest => (s.setStack rest).setPc a) := rfl
  rw [e]
  cases h : s.stack with
  | nil => exact .inl ⟨rfl, rfl⟩
  | cons a rest => exact .inr ⟨a, rest, rfl, rfl⟩

theorem State.stackFull_iff {s : State} :
    s.stackFull = true ↔ ∃ c, s.params.stackCapacity = some c ∧ c ≤ s.stack.length := by
  have e : s.stackFull = match s.params.stackCapacity with
      | none => false
      | some c => c ≤ s.stack.length := rfl
  rw [e]
  cases s.params.stackCapacity <;> simp

/-- CALL's two outcomes (R134, R282). -/
theorem execCall_cases (nnn : Addr) (s : State) :
    (s.stackFull = true ∧ execCall nnn s = .fault (.stackOverflow (s.pc - 2#12) s)) ∨
    (s.stackFull = false ∧ execCall nnn s = .next ((s.setStack (s.pc :: s.stack)).setPc nnn)) := by
  have e : execCall nnn s = (if s.stackFull then CpuResult.fault .stackOverflow (s.pc - 2#12) s
      else CpuResult.next ((s.setStack (s.pc :: s.stack)).setPc nnn)).toResult := rfl
  rw [e]
  cases h : s.stackFull
  · exact .inr ⟨rfl, rfl⟩
  · exact .inl ⟨rfl, rfl⟩

/-- A run of two parts is the second run after the first. -/
theorem runOps_append (l l' : List HostOp) (s : State) :
    runOps (l ++ l') s =
      match runOps l s with
      | .next t => runOps l' t
      | .fault f => .fault f
      | .refused r => .refused r := by
  induction l generalizing s with
  | nil => rfl
  | cons o rest ih =>
    simp only [List.cons_append, runOps]
    cases applyOp o s with
    | next t => exact ih t
    | fault f => rfl
    | refused r => rfl

end Sys2Proof.Machine
end

