-- ==== Sys2Proof/Laws/Exec.lean ====
section
/-! SUPPORT. What any instruction can answer, and its frame: said once over all instructions, so that a proof about every
step cites these instead of unfolding the meanings. -/

namespace Sys2Proof.Machine

/-! Each meaning that always goes on, in State's own words. -/

section
variable (s : State) (x y : RegIdx) (nn : Byte) (nnn : Addr) (n : Nibble)

@[simp] theorem exec_cls : exec .cls s = .next (s.screenClear) := rfl
@[simp] theorem exec_sys : exec (.sys nnn) s = .next (s) := rfl
@[simp] theorem exec_jp : exec (.jp nnn) s = .next (s.setPc nnn) := rfl
@[simp] theorem exec_seImm : exec (.seImm x nn) s = .next (s.skipIf (s.reg x == nn)) := rfl
@[simp] theorem exec_sneImm : exec (.sneImm x nn) s = .next (s.skipIf (s.reg x != nn)) := rfl
@[simp] theorem exec_seReg : exec (.seReg x y) s = .next (s.skipIf (s.reg x == s.reg y)) := rfl
@[simp] theorem exec_sneReg : exec (.sneReg x y) s = .next (s.skipIf (s.reg x != s.reg y)) := rfl
@[simp] theorem exec_ldImm : exec (.ldImm x nn) s = .next (s.setReg x nn) := rfl
@[simp] theorem exec_addImm : exec (.addImm x nn) s = .next (s.setReg x (s.reg x + nn)) := rfl
@[simp] theorem exec_ldReg : exec (.ldReg x y) s = .next (s.setReg x (s.reg y)) := rfl
@[simp] theorem exec_orReg : exec (.orReg x y) s = .next (s.setReg x (s.reg x ||| s.reg y)) := rfl
@[simp] theorem exec_andReg : exec (.andReg x y) s = .next (s.setReg x (s.reg x &&& s.reg y)) := rfl
@[simp] theorem exec_xorReg : exec (.xorReg x y) s = .next (s.setReg x (s.reg x ^^^ s.reg y)) := rfl
@[simp] theorem exec_addReg :
    exec (.addReg x y) s = .next
      (s.setRegFlag x (s.reg x + s.reg y) (carryFlag (s.reg x) (s.reg y))) := rfl
@[simp] theorem exec_subReg :
    exec (.subReg x y) s = .next
      (s.setRegFlag x (s.reg x - s.reg y) (notBorrowFlag (s.reg x) (s.reg y))) := rfl
@[simp] theorem exec_shr : exec (.shr x y) s = .next (s.setRegFlag x (s.reg y >>> 1) (lowBitFlag (s.reg y))) := rfl
@[simp] theorem exec_subn :
    exec (.subn x y) s = .next
      (s.setRegFlag x (s.reg y - s.reg x) (notBorrowFlag (s.reg y) (s.reg x))) := rfl
@[simp] theorem exec_shl : exec (.shl x y) s = .next (s.setRegFlag x (s.reg y <<< 1) (highBitFlag (s.reg y))) := rfl
@[simp] theorem exec_ldI : exec (.ldI nnn) s = .next (s.setI nnn) := rfl
@[simp] theorem exec_jpV0 : exec (.jpV0 nnn) s = .next (s.setPc (nnn + (s.reg 0).setWidth 12)) := rfl
@[simp] theorem exec_rnd : exec (.rnd x nn) s = .next (s.afterDraw.setReg x (s.nextByte &&& nn)) := rfl
@[simp] theorem exec_drw :
    exec (.drw x y n) s = .next
      ((s.setReg VF 0#8).drawRows (s.reg x).toNat (s.reg y).toNat n.toNat) := rfl
@[simp] theorem exec_ldVxDt : exec (.ldVxDt x) s = .next (s.setReg x s.dt) := rfl
@[simp] theorem exec_ldVxK : exec (.ldVxK x) s = .next (s.setKeyAwait (some x)) := rfl
@[simp] theorem exec_ldDtVx : exec (.ldDtVx x) s = .next (s.delayWrite (s.reg x)) := rfl
@[simp] theorem exec_ldStVx : exec (.ldStVx x) s = .next (s.soundWrite (s.reg x)) := rfl
@[simp] theorem exec_addI : exec (.addI x) s = .next (s.setI (s.i + (s.reg x).setWidth 12)) := rfl
@[simp] theorem exec_ldF : exec (.ldF x) s = .next (s.setI (glyphAddr (s.reg x))) := rfl
@[simp] theorem exec_ldB :
    exec (.ldB x) s = .next
      (((s.memWrite (s.dataAddr 0) (hundreds (s.reg x))).memWrite (s.dataAddr 1) (tens (s.reg x))).memWrite
      (s.dataAddr 2) (ones (s.reg x))) := rfl
@[simp] theorem exec_ldMemVx : exec (.ldMemVx x) s = .next ((s.storeRegs (x + 1)).setI (s.dataAddr (x + 1))) := rfl
@[simp] theorem exec_ldVxMem : exec (.ldVxMem x) s = .next ((s.loadRegs (x + 1)).setI (s.dataAddr (x + 1))) := rfl

end

/-! The two key skips, by their key test. -/

theorem execSkp_eq (x : RegIdx) (s : State) :
    execSkp x s = match s.keyTest (s.reg x) with
      | some (pressed, t) => .next (t.skipIf pressed)
      | none => .fault (.keyIndexOutOfRange (s.pc - 2#12) s) := by
  unfold execSkp Ports.skp
  cases h : statePorts.keyTest s (statePorts.reg s x) <;> rw [show s.keyTest (s.reg x) = _ from h] <;> rfl

theorem execSknp_eq (x : RegIdx) (s : State) :
    execSknp x s = match s.keyTest (s.reg x) with
      | some (pressed, t) => .next (t.skipIf (!pressed))
      | none => .fault (.keyIndexOutOfRange (s.pc - 2#12) s) := by
  unfold execSknp Ports.sknp
  cases h : statePorts.keyTest s (statePorts.reg s x) <;> rw [show s.keyTest (s.reg x) = _ from h] <;> rfl

/-- Every instruction goes on, but for the two model faults of R282. -/
theorem exec_cases (i : Instr) (s : State) :
    (∃ t, exec i s = .next t) ∨
    (∃ nnn, i = .call nnn ∧ s.stackFull = true ∧ exec i s = .fault (.stackOverflow (s.pc - 2#12) s)) ∨
    (∃ x, (i = .skp x ∨ i = .sknp x) ∧ 15 < (s.reg x).toNat ∧ s.params.keyOorPolicy = .fault ∧
      exec i s = .fault (.keyIndexOutOfRange (s.pc - 2#12) s)) := by
  cases i
  case ret => rcases execRet_cases s with ⟨_, e⟩ | ⟨_, _, _, e⟩ <;> exact .inl ⟨_, e⟩
  case call nnn =>
    rcases execCall_cases nnn s with ⟨h, e⟩ | ⟨_, e⟩
    · exact .inr (.inl ⟨nnn, rfl, h, e⟩)
    · exact .inl ⟨_, e⟩
  case skp x =>
    rcases s.keyTest_cases (s.reg x) with ⟨_, e⟩ | ⟨_, _, e⟩ | ⟨_, _, e⟩ | ⟨_, _, e⟩ | ⟨h, h', e⟩
    all_goals first
      | exact .inl ⟨_, (execSkp_eq x s).trans (by rw [e])⟩
      | exact .inr (.inr ⟨x, .inl rfl, h, h', (execSkp_eq x s).trans (by rw [e])⟩)
  case sknp x =>
    rcases s.keyTest_cases (s.reg x) with ⟨_, e⟩ | ⟨_, _, e⟩ | ⟨_, _, e⟩ | ⟨_, _, e⟩ | ⟨h, h', e⟩
    all_goals first
      | exact .inl ⟨_, (execSknp_eq x s).trans (by rw [e])⟩
      | exact .inr (.inr ⟨x, .inr rfl, h, h', (execSknp_eq x s).trans (by rw [e])⟩)
  all_goals exact .inl ⟨_, rfl⟩

/-- A key test that is no model fault yields `keyHeld` and changes nothing but the draw counter. -/
theorem keyTest_some {s t : State} {k : Byte} {b : Bool} (h : s.keyTest k = some (b, t)) :
    b = keyHeld s k ∧ (t = s ∨ (15 < k.toNat ∧ s.params.keyOorPolicy = .draw ∧ t = s.afterDraw)) := by
  rcases s.keyTest_cases k with ⟨hl, e⟩ | ⟨hl, hp, e⟩ | ⟨hl, hp, e⟩ | ⟨hl, hp, e⟩ | ⟨hl, hp, e⟩ <;>
    rw [e] at h <;> simp only [Option.some.injEq, Prod.mk.injEq, reduceCtorEq] at h <;> obtain ⟨rfl, rfl⟩ := h
  · refine ⟨?_, .inl rfl⟩
    simp only [keyHeld, hl, ↓reduceIte]
    congr 1
    exact Fin.ext (by simp; omega)
  · exact ⟨by simp [keyHeld, show ¬k.toNat < 16 by omega, hp, State.nextBit_eq], .inr ⟨hl, hp, rfl⟩⟩
  · exact ⟨by simp only [keyHeld, show ¬k.toNat < 16 by omega, hp, ↓reduceIte]; rfl, .inl rfl⟩
  · exact ⟨by simp [keyHeld, show ¬k.toNat < 16 by omega, hp], .inl rfl⟩

/-- SKP, when it goes on: a skip by the key test, after the draw if there was one. -/
theorem execSkp_next {x : RegIdx} {s t : State} (h : execSkp x s = .next t) :
    ∃ u, (u = s ∨ (15 < (s.reg x).toNat ∧ s.params.keyOorPolicy = .draw ∧ u = s.afterDraw)) ∧
      t = u.skipIf (keyHeld s (s.reg x)) := by
  rw [execSkp_eq] at h
  cases e : s.keyTest (s.reg x) with
  | none => rw [e] at h; cases h
  | some p =>
    obtain ⟨b, u⟩ := p
    rw [e] at h
    obtain ⟨rfl, hu⟩ := keyTest_some e
    cases h
    exact ⟨u, hu, rfl⟩

/-- SKNP, when it goes on: a skip by the negated key test, after the draw if there was one. -/
theorem execSknp_next {x : RegIdx} {s t : State} (h : execSknp x s = .next t) :
    ∃ u, (u = s ∨ (15 < (s.reg x).toNat ∧ s.params.keyOorPolicy = .draw ∧ u = s.afterDraw)) ∧
      t = u.skipIf (!keyHeld s (s.reg x)) := by
  rw [execSknp_eq] at h
  cases e : s.keyTest (s.reg x) with
  | none => rw [e] at h; cases h
  | some p =>
    obtain ⟨b, u⟩ := p
    rw [e] at h
    obtain ⟨rfl, hu⟩ := keyTest_some e
    cases h
    exact ⟨u, hu, rfl⟩

/-- The frame of every instruction: it changes the parts and registers of the tables, and nothing else. -/
theorem exec_frame {i : Instr} {s t : State} (h : exec i s = .next t) : Frame (partsWritten i) (regsWritten i) s t := by
  cases i
  case ret =>
    rcases execRet_cases s with ⟨_, e⟩ | ⟨a, rest, _, e⟩ <;> rw [exec, e] at h <;> cases h
    · exact Frame.refl _ _ _
    · exact ((frame_setStack s rest).mono (by simp [partsWritten]) (by simp)).trans
        ((frame_setPc _ a).mono (by simp [partsWritten]) (by simp))
  case call nnn =>
    rcases execCall_cases nnn s with ⟨_, e⟩ | ⟨_, e⟩ <;> rw [exec, e] at h <;> cases h
    exact ((frame_setStack s _).mono (by simp [partsWritten]) (by simp)).trans
      ((frame_setPc _ _).mono (by simp [partsWritten]) (by simp))
  case skp x =>
    obtain ⟨u, rfl | ⟨_, _, rfl⟩, rfl⟩ := execSkp_next h
    · exact (frame_skipIf _ _).mono (by simp [partsWritten]) (by simp)
    · exact ((frame_afterDraw s).mono (by simp [partsWritten]) (by simp)).trans
        ((frame_skipIf _ _).mono (by simp [partsWritten]) (by simp))
  case sknp x =>
    obtain ⟨u, rfl | ⟨_, _, rfl⟩, rfl⟩ := execSknp_next h
    · exact (frame_skipIf _ _).mono (by simp [partsWritten]) (by simp)
    · exact ((frame_afterDraw s).mono (by simp [partsWritten]) (by simp)).trans
        ((frame_skipIf _ _).mono (by simp [partsWritten]) (by simp))
  case rnd x nn =>
    cases h
    exact ((frame_afterDraw s).mono (by simp [partsWritten]) (by simp)).trans
      ((frame_setReg _ _ _).mono (by simp) (by simp [regsWritten]))
  case drw x y n =>
    cases h
    exact ((frame_setReg s VF _).mono (by simp) (by simp [regsWritten])).trans
      ((frame_drawRows _ _ _ _).mono (by simp [partsWritten]) (by simp [regsWritten]))
  case ldB x =>
    cases h
    exact ((frame_memWrite s _ _).trans (frame_memWrite _ _ _)).trans (frame_memWrite _ _ _)
  case ldMemVx x =>
    cases h
    exact ((frame_storeRegs s _).mono (by simp [partsWritten]) (by simp)).trans
      ((frame_setI _ _).mono (by simp [partsWritten]) (by simp))
  case ldVxMem x =>
    cases h
    refine ((frame_loadRegs s (n := x.val + 1) (by omega)).mono (by simp) ?_).trans
      ((frame_setI _ _).mono (by simp [partsWritten]) (by simp))
    intro q
    simp [regsWritten]
  all_goals
    cases h
    first
    | exact Frame.refl _ _ _
    | exact frame_setReg _ _ _
    | exact frame_setRegFlag _ _ _ _
    | exact frame_setPc _ _
    | exact frame_skipIf _ _
    | exact frame_setI _ _
    | exact frame_screenClear _
    | exact frame_delayWrite _ _
    | exact frame_soundWrite _ _
    | exact frame_setKeyAwait _ _

end Sys2Proof.Machine
end

