-- ==== Sys2Proof/Laws/Engine.lean ====
section
/-! SUPPORT. The CPU engine over any machine with ports (20_memory.md R61): `exec` and `step` are it on State; what a bus
answers after each write, port by port; and the one induction over the engine's code: if two machines' ports keep a
relation, so does a step. -/

namespace Sys2Proof.Machine

/-! ## State is one machine with ports -/

theorem exec_eq_engine (i : Instr) (s : State) : exec i s = (statePorts.exec i s).toResult := by
  cases i <;> rfl

theorem step_eq_engine (s : State) : step s = (statePorts.step s).toResult := by
  have e : statePorts.step s = match s.keyAwait with
      | some r => .next (s.keyPoll r)
      | none => statePorts.execWord s.fetchWord s.afterFetch := rfl
  rw [e, step]
  cases s.keyAwait with
  | some r => rfl
  | none =>
    change execWord s.fetchWord s.afterFetch = (statePorts.execWord s.fetchWord s.afterFetch).toResult
    rw [execWord, Ports.execWord]
    cases decode s.fetchWord with
    | ok i => exact exec_eq_engine i s.afterFetch
    | error e => rfl

theorem State.split_inj {s t : State} (h : s.split = t.split) : s = t := by
  cases s; cases t
  simp only [State.split, State.store, Sys.mk.injEq, Cpu.mk.injEq, Store.mk.injEq] at h
  simp [h]

/-! ## A relation that two machines' ports keep -/

/-- Related machines read alike, and stay related after the same write. -/
structure PortsRel {M N : Type} (o : Ports M) (q : Ports N) (R : M → N → Prop) : Prop where
  reg {s t} (h : R s t) (r) : o.reg s r = q.reg t r
  setReg {s t} (h : R s t) (r w) : R (o.setReg s r w) (q.setReg t r w)
  pc {s t} (h : R s t) : o.pc s = q.pc t
  setPc {s t} (h : R s t) (a) : R (o.setPc s a) (q.setPc t a)
  index {s t} (h : R s t) : o.index s = q.index t
  setIndex {s t} (h : R s t) (a) : R (o.setIndex s a) (q.setIndex t a)
  stack {s t} (h : R s t) : o.stack s = q.stack t
  setStack {s t} (h : R s t) (l) : R (o.setStack s l) (q.setStack t l)
  keyAwait {s t} (h : R s t) : o.keyAwait s = q.keyAwait t
  setKeyAwait {s t} (h : R s t) (k) : R (o.setKeyAwait s k) (q.setKeyAwait t k)
  draws {s t} (h : R s t) : o.draws s = q.draws t
  afterDraw {s t} (h : R s t) : R (o.afterDraw s) (q.afterDraw t)
  params {s t} (h : R s t) : o.params s = q.params t
  memRead {s t} (h : R s t) (a) : o.memRead s a = q.memRead t a
  memWrite {s t} (h : R s t) (a w) : R (o.memWrite s a w) (q.memWrite t a w)
  keyRead {s t} (h : R s t) (k) : o.keyRead s k = q.keyRead t k
  screenClear {s t} (h : R s t) : R (o.screenClear s) (q.screenClear t)
  pixelRead {s t} (h : R s t) (x y) : o.pixelRead s x y = q.pixelRead t x y
  pixelWrite {s t} (h : R s t) (x y b) : R (o.pixelWrite s x y b) (q.pixelWrite t x y b)
  delayRead {s t} (h : R s t) : o.delayRead s = q.delayRead t
  delayWrite {s t} (h : R s t) (w) : R (o.delayWrite s w) (q.delayWrite t w)
  soundWrite {s t} (h : R s t) (w) : R (o.soundWrite s w) (q.soundWrite t w)

namespace PortsRel

variable {M N : Type} {o : Ports M} {q : Ports N} {R : M → N → Prop} {s : M} {t : N}

theorem dataAddr (p : PortsRel o q R) (h : R s t) (k : Nat) : o.dataAddr s k = q.dataAddr t k := by
  rw [Ports.dataAddr, Ports.dataAddr, p.index h]

theorem skipIf (p : PortsRel o q R) (h : R s t) (c : Bool) : R (o.skipIf s c) (q.skipIf t c) := by
  rw [Ports.skipIf, Ports.skipIf, p.pc h]
  cases c
  · exact h
  · exact p.setPc h _

theorem setRegFlag (p : PortsRel o q R) (h : R s t) (x : RegIdx) (w f : Byte) :
    R (o.setRegFlag s x w f) (q.setRegFlag t x w f) :=
  p.setReg (p.setReg h x w) VF f

theorem stackFull (p : PortsRel o q R) (h : R s t) : o.stackFull s = q.stackFull t := by
  rw [Ports.stackFull, Ports.stackFull, p.params h, p.stack h]

theorem modelFault (p : PortsRel o q R) (h : R s t) (reason : FaultReason) :
    (o.modelFault reason s).Matches R (q.modelFault reason t) :=
  ⟨rfl, by rw [p.pc h], h⟩

/-- Two key tests are model faults together, or answer alike. -/
theorem keyTest (p : PortsRel o q R) (h : R s t) (k : Byte) :
    (o.keyTest s k = none ∧ q.keyTest t k = none) ∨
    ∃ b s' t', o.keyTest s k = some (b, s') ∧ q.keyTest t k = some (b, t') ∧ R s' t' := by
  unfold Ports.keyTest
  by_cases hk : k.toNat < 16
  · rw [dif_pos hk, dif_pos hk, p.keyRead h]
    exact .inr ⟨_, _, _, rfl, rfl, h⟩
  · rw [dif_neg hk, dif_neg hk, p.params h, Ports.nextBit, Ports.nextBit, p.draws h, p.keyRead h]
    cases (q.params t).keyOorPolicy with
    | draw => exact .inr ⟨_, _, _, rfl, rfl, p.afterDraw h⟩
    | mask => exact .inr ⟨_, _, _, rfl, rfl, h⟩
    | notPressed => exact .inr ⟨_, _, _, rfl, rfl, h⟩
    | fault => exact .inl ⟨rfl, rfl⟩

theorem fetchWord (p : PortsRel o q R) (h : R s t) : o.fetchWord s = q.fetchWord t := by
  rw [Ports.fetchWord, Ports.fetchWord, p.pc h, p.memRead h, p.memRead h]

theorem afterFetch (p : PortsRel o q R) (h : R s t) : R (o.afterFetch s) (q.afterFetch t) := by
  rw [Ports.afterFetch, Ports.afterFetch, p.pc h]
  exact p.setPc h _

theorem keyPoll (p : PortsRel o q R) (h : R s t) (r : RegIdx) : R (o.keyPoll s r) (q.keyPoll t r) := by
  have hk : o.firstPressed s = q.firstPressed t := by
    rw [Ports.firstPressed, Ports.firstPressed, funext fun k => p.keyRead h k]
  rw [Ports.keyPoll, Ports.keyPoll, hk]
  cases q.firstPressed t with
  | some k => exact p.setKeyAwait (p.setReg h r _) none
  | none => exact h

theorem storeRegs (p : PortsRel o q R) (h : R s t) : ∀ n, R (o.storeRegs s n) (q.storeRegs t n)
  | 0 => h
  | n + 1 => by
    have ih := p.storeRegs h n
    rw [Ports.storeRegs, Ports.storeRegs, p.dataAddr ih, p.reg ih]
    exact p.memWrite ih _ _

theorem loadRegs (p : PortsRel o q R) (h : R s t) : ∀ n, R (o.loadRegs s n) (q.loadRegs t n)
  | 0 => h
  | n + 1 => by
    have ih := p.loadRegs h n
    rw [Ports.loadRegs, Ports.loadRegs, p.dataAddr ih, p.memRead ih]
    exact p.setReg ih _ _

theorem togglePixel (p : PortsRel o q R) (h : R s t) (px py : Nat) :
    R (o.togglePixel s px py) (q.togglePixel t px py) := by
  have hw := p.pixelWrite h px py (!q.pixelRead t px py)
  rw [Ports.togglePixel, Ports.togglePixel, p.pixelRead h]
  cases hold : q.pixelRead t px py <;> rw [hold] at hw
  · exact hw
  · exact p.setReg hw VF 1#8

theorem drawCols (p : PortsRel o q R) (h : R s t) (b : Byte) (vx py : Nat) :
    ∀ n, R (o.drawCols s b vx py n) (q.drawCols t b vx py n)
  | 0 => h
  | n + 1 => by
    have ih := p.drawCols h b vx py n
    rw [Ports.drawCols, Ports.drawCols]
    split
    · exact p.togglePixel ih _ _
    · exact ih

theorem drawRows (p : PortsRel o q R) (h : R s t) (vx vy : Nat) : ∀ n, R (o.drawRows s vx vy n) (q.drawRows t vx vy n)
  | 0 => h
  | n + 1 => by
    have ih := p.drawRows h vx vy n
    rw [Ports.drawRows, Ports.drawRows, p.dataAddr ih, p.memRead ih]
    exact p.drawCols ih _ _ _ _

/-- Every instruction keeps the relation, and faults on both sides or on neither. -/
theorem exec (p : PortsRel o q R) (h : R s t) (i : Instr) : (o.exec i s).Matches R (q.exec i t) := by
  cases i
  case ret =>
    change R (o.ret s) (q.ret t)
    rw [Ports.ret, Ports.ret, p.stack h]
    cases q.stack t with
    | nil => exact h
    | cons a rest => exact p.setPc (p.setStack h rest) a
  case call nnn =>
    change (o.call nnn s).Matches R (q.call nnn t)
    rw [Ports.call, Ports.call, p.stackFull h, p.pc h, p.stack h]
    cases q.stackFull t
    · exact p.setPc (p.setStack h _) nnn
    · exact p.modelFault h .stackOverflow
  case skp x =>
    change (o.skp x s).Matches R (q.skp x t)
    rw [Ports.skp, Ports.skp, p.reg h]
    rcases p.keyTest h (q.reg t x) with ⟨e, e'⟩ | ⟨b, s', t', e, e', h'⟩ <;> rw [e, e']
    · exact p.modelFault h .keyIndexOutOfRange
    · exact p.skipIf h' b
  case sknp x =>
    change (o.sknp x s).Matches R (q.sknp x t)
    rw [Ports.sknp, Ports.sknp, p.reg h]
    rcases p.keyTest h (q.reg t x) with ⟨e, e'⟩ | ⟨b, s', t', e, e', h'⟩ <;> rw [e, e']
    · exact p.modelFault h .keyIndexOutOfRange
    · exact p.skipIf h' (!b)
  case drw x y n =>
    change R (o.drw x y n s) (q.drw x y n t)
    rw [Ports.drw, Ports.drw, p.reg h, p.reg h]
    exact p.drawRows (p.setReg h VF 0#8) _ _ _
  case ldB x =>
    change R (o.ldB x s) (q.ldB x t)
    simp only [Ports.ldB, p.reg h, p.dataAddr h]
    exact p.memWrite (p.memWrite (p.memWrite h _ _) _ _) _ _
  case ldMemVx x =>
    change R (o.ldMemVx x s) (q.ldMemVx x t)
    rw [Ports.ldMemVx, Ports.ldMemVx, p.dataAddr h]
    exact p.setIndex (p.storeRegs h _) _
  case ldVxMem x =>
    change R (o.ldVxMem x s) (q.ldVxMem x t)
    rw [Ports.ldVxMem, Ports.ldVxMem, p.dataAddr h]
    exact p.setIndex (p.loadRegs h _) _
  case rnd x nn =>
    change R (o.rnd x nn s) (q.rnd x nn t)
    rw [Ports.rnd, Ports.rnd, Ports.nextByte, Ports.nextByte, p.draws h]
    exact p.setReg (p.afterDraw h) _ _
  case cls => exact p.screenClear h
  case sys nnn => exact h
  case jp nnn => exact p.setPc h nnn
  case ldI nnn => exact p.setIndex h nnn
  case ldVxK x => exact p.setKeyAwait h (some x)
  case ldImm x nn => exact p.setReg h x nn
  case jpV0 nnn =>
    change R (o.jpV0 nnn s) (q.jpV0 nnn t)
    rw [Ports.jpV0, Ports.jpV0, p.reg h]
    exact p.setPc h _
  case ldVxDt x =>
    change R (o.ldVxDt x s) (q.ldVxDt x t)
    rw [Ports.ldVxDt, Ports.ldVxDt, p.delayRead h]
    exact p.setReg h x _
  case ldDtVx x =>
    change R (o.ldDtVx x s) (q.ldDtVx x t)
    rw [Ports.ldDtVx, Ports.ldDtVx, p.reg h]
    exact p.delayWrite h _
  case ldStVx x =>
    change R (o.ldStVx x s) (q.ldStVx x t)
    rw [Ports.ldStVx, Ports.ldStVx, p.reg h]
    exact p.soundWrite h _
  case addI x =>
    change R (o.addI x s) (q.addI x t)
    rw [Ports.addI, Ports.addI, p.index h, p.reg h]
    exact p.setIndex h _
  case ldF x =>
    change R (o.ldF x s) (q.ldF x t)
    rw [Ports.ldF, Ports.ldF, p.reg h]
    exact p.setIndex h _
  all_goals
    simp only [Ports.exec, CpuResult.Matches, Ports.seImm, Ports.sneImm, Ports.seReg, Ports.sneReg, Ports.addImm,
      Ports.ldReg, Ports.orReg, Ports.andReg, Ports.xorReg, Ports.addReg, Ports.subReg, Ports.shr, Ports.subn,
      Ports.shl, p.reg h]
    first
    | exact p.skipIf h _
    | exact p.setReg h _ _
    | exact p.setRegFlag h _ _ _

/-- A step keeps the relation, and faults on both sides or on neither. -/
theorem step (p : PortsRel o q R) (h : R s t) : (o.step s).Matches R (q.step t) := by
  rw [Ports.step, Ports.step, p.keyAwait h]
  cases q.keyAwait t with
  | some r => exact p.keyPoll h r
  | none =>
    simp only [Ports.execWord, p.fetchWord h]
    cases decode (q.fetchWord t) with
    | ok i => exact p.exec (p.afterFetch h) i
    | error e => exact p.afterFetch h

end PortsRel

end Sys2Proof.Machine
end

