-- ==== Sys2Proof/Laws/PerInstr.lean ====
section
/-! SUPPORT. Statements about every instruction as syntax, one lemma per constructor. Family EncodesItsPattern: the
word of an instruction has the fixed bits of its row of spec/opcode_table.json (its mask and match), in the table's
order. -/

namespace Sys2Proof.Laws.EncodesItsPattern

/-- The bits of the row that are fixed (the table's "mask"). -/
def rowMask : Instr → Opcode
  | .cls => 0xFFFF#16
  | .ret => 0xFFFF#16
  | .sys _ => 0xF000#16
  | .jp _ => 0xF000#16
  | .call _ => 0xF000#16
  | .seImm _ _ => 0xF000#16
  | .sneImm _ _ => 0xF000#16
  | .seReg _ _ => 0xF00F#16
  | .sneReg _ _ => 0xF00F#16
  | .ldImm _ _ => 0xF000#16
  | .addImm _ _ => 0xF000#16
  | .ldReg _ _ => 0xF00F#16
  | .orReg _ _ => 0xF00F#16
  | .andReg _ _ => 0xF00F#16
  | .xorReg _ _ => 0xF00F#16
  | .addReg _ _ => 0xF00F#16
  | .subReg _ _ => 0xF00F#16
  | .shr _ _ => 0xF00F#16
  | .subn _ _ => 0xF00F#16
  | .shl _ _ => 0xF00F#16
  | .ldI _ => 0xF000#16
  | .jpV0 _ => 0xF000#16
  | .rnd _ _ => 0xF000#16
  | .drw _ _ _ => 0xF000#16
  | .skp _ => 0xF0FF#16
  | .sknp _ => 0xF0FF#16
  | .ldVxDt _ => 0xF0FF#16
  | .ldVxK _ => 0xF0FF#16
  | .ldDtVx _ => 0xF0FF#16
  | .ldStVx _ => 0xF0FF#16
  | .addI _ => 0xF0FF#16
  | .ldF _ => 0xF0FF#16
  | .ldB _ => 0xF0FF#16
  | .ldMemVx _ => 0xF0FF#16
  | .ldVxMem _ => 0xF0FF#16

/-- Their value (the table's "match"). -/
def rowMatch : Instr → Opcode
  | .cls => 0x00E0#16
  | .ret => 0x00EE#16
  | .sys _ => 0x0000#16
  | .jp _ => 0x1000#16
  | .call _ => 0x2000#16
  | .seImm _ _ => 0x3000#16
  | .sneImm _ _ => 0x4000#16
  | .seReg _ _ => 0x5000#16
  | .sneReg _ _ => 0x9000#16
  | .ldImm _ _ => 0x6000#16
  | .addImm _ _ => 0x7000#16
  | .ldReg _ _ => 0x8000#16
  | .orReg _ _ => 0x8001#16
  | .andReg _ _ => 0x8002#16
  | .xorReg _ _ => 0x8003#16
  | .addReg _ _ => 0x8004#16
  | .subReg _ _ => 0x8005#16
  | .shr _ _ => 0x8006#16
  | .subn _ _ => 0x8007#16
  | .shl _ _ => 0x800E#16
  | .ldI _ => 0xA000#16
  | .jpV0 _ => 0xB000#16
  | .rnd _ _ => 0xC000#16
  | .drw _ _ _ => 0xD000#16
  | .skp _ => 0xE09E#16
  | .sknp _ => 0xE0A1#16
  | .ldVxDt _ => 0xF007#16
  | .ldVxK _ => 0xF00A#16
  | .ldDtVx _ => 0xF015#16
  | .ldStVx _ => 0xF018#16
  | .addI _ => 0xF01E#16
  | .ldF _ => 0xF029#16
  | .ldB _ => 0xF033#16
  | .ldMemVx _ => 0xF055#16
  | .ldVxMem _ => 0xF065#16

/-- The instruction's word has its row's fixed bits. -/
def Statement (i : Instr) : Prop := encode i &&& rowMask i = rowMatch i

theorem fixed_mkNNN (a : Nibble) (nnn : Addr) : mkNNN a nnn &&& 0xF000#16 = mkNNN a 0#12 := by
  refine BitVec.eq_of_getLsbD_eq fun k hk => ?_
  rw [BitVec.getLsbD_and, getLsbD_mkNNN, getLsbD_mkNNN]
  rcases Nat.lt_or_ge k 12 with h | h
  · interval_cases k <;> simp
  · interval_cases k <;> simp

theorem fixed_mkXNN (a : Nibble) (x : RegIdx) (nn : Byte) : mkXNN a x nn &&& 0xF0FF#16 = mkXNN a 0 nn := by
  refine BitVec.eq_of_getLsbD_eq fun k hk => ?_
  rw [BitVec.getLsbD_and, getLsbD_mkXNN, getLsbD_mkXNN]
  interval_cases k <;> simp [regField]

theorem fixed_mkXYN (a : Nibble) (x y : RegIdx) (n : Nibble) : mkXYN a x y n &&& 0xF00F#16 = mkXYN a 0 0 n := by
  refine BitVec.eq_of_getLsbD_eq fun k hk => ?_
  rw [BitVec.getLsbD_and, getLsbD_mkXYN, getLsbD_mkXYN]
  interval_cases k <;> simp [regField]

theorem cls : Statement .cls := rfl
theorem ret : Statement .ret := rfl
theorem sys (nnn : Addr) : Statement (.sys nnn) := fixed_mkNNN _ nnn
theorem jp (nnn : Addr) : Statement (.jp nnn) := fixed_mkNNN _ nnn
theorem call (nnn : Addr) : Statement (.call nnn) := fixed_mkNNN _ nnn
theorem seImm (x : RegIdx) (nn : Byte) : Statement (.seImm x nn) := fixed_mkNNN _ (regField x ++ nn)
theorem sneImm (x : RegIdx) (nn : Byte) : Statement (.sneImm x nn) := fixed_mkNNN _ (regField x ++ nn)
theorem seReg (x y : RegIdx) : Statement (.seReg x y) := fixed_mkXYN _ x y _
theorem sneReg (x y : RegIdx) : Statement (.sneReg x y) := fixed_mkXYN _ x y _
theorem ldImm (x : RegIdx) (nn : Byte) : Statement (.ldImm x nn) := fixed_mkNNN _ (regField x ++ nn)
theorem addImm (x : RegIdx) (nn : Byte) : Statement (.addImm x nn) := fixed_mkNNN _ (regField x ++ nn)
theorem ldReg (x y : RegIdx) : Statement (.ldReg x y) := fixed_mkXYN _ x y _
theorem orReg (x y : RegIdx) : Statement (.orReg x y) := fixed_mkXYN _ x y _
theorem andReg (x y : RegIdx) : Statement (.andReg x y) := fixed_mkXYN _ x y _
theorem xorReg (x y : RegIdx) : Statement (.xorReg x y) := fixed_mkXYN _ x y _
theorem addReg (x y : RegIdx) : Statement (.addReg x y) := fixed_mkXYN _ x y _
theorem subReg (x y : RegIdx) : Statement (.subReg x y) := fixed_mkXYN _ x y _
theorem shr (x y : RegIdx) : Statement (.shr x y) := fixed_mkXYN _ x y _
theorem subn (x y : RegIdx) : Statement (.subn x y) := fixed_mkXYN _ x y _
theorem shl (x y : RegIdx) : Statement (.shl x y) := fixed_mkXYN _ x y _
theorem ldI (nnn : Addr) : Statement (.ldI nnn) := fixed_mkNNN _ nnn
theorem jpV0 (nnn : Addr) : Statement (.jpV0 nnn) := fixed_mkNNN _ nnn
theorem rnd (x : RegIdx) (nn : Byte) : Statement (.rnd x nn) := fixed_mkNNN _ (regField x ++ nn)
theorem drw (x y : RegIdx) (n : Nibble) : Statement (.drw x y n) := fixed_mkNNN _ (regField x ++ (regField y ++ n))
theorem skp (x : RegIdx) : Statement (.skp x) := fixed_mkXNN _ x _
theorem sknp (x : RegIdx) : Statement (.sknp x) := fixed_mkXNN _ x _
theorem ldVxDt (x : RegIdx) : Statement (.ldVxDt x) := fixed_mkXNN _ x _
theorem ldVxK (x : RegIdx) : Statement (.ldVxK x) := fixed_mkXNN _ x _
theorem ldDtVx (x : RegIdx) : Statement (.ldDtVx x) := fixed_mkXNN _ x _
theorem ldStVx (x : RegIdx) : Statement (.ldStVx x) := fixed_mkXNN _ x _
theorem addI (x : RegIdx) : Statement (.addI x) := fixed_mkXNN _ x _
theorem ldF (x : RegIdx) : Statement (.ldF x) := fixed_mkXNN _ x _
theorem ldB (x : RegIdx) : Statement (.ldB x) := fixed_mkXNN _ x _
theorem ldMemVx (x : RegIdx) : Statement (.ldMemVx x) := fixed_mkXNN _ x _
theorem ldVxMem (x : RegIdx) : Statement (.ldVxMem x) := fixed_mkXNN _ x _

end Sys2Proof.Laws.EncodesItsPattern
end

