-- ==== Sys2Proof/Laws/Session.lean ====
section
/-! SUPPORT. What the host's operations and construction can do, said once each (60_exceptions.md R287 to R296,
70_reset_and_hazards.md R330 to R334): proofs about sessions cite these and unfold none of them. -/

namespace Sys2Proof.Machine

variable (s : State)

/-! ## Timer ticks -/

/-- A delay tick is one write: DT less one, and 0 stays 0. -/
theorem State.delayTick_eq : s.delayTick = s.delayWrite (BitVec.ofNat 8 (s.dt.toNat - 1)) := by
  have hd : s.delayRead = s.dt := rfl
  rw [State.delayTick, hd]
  split
  · next h => congr 1; apply BitVec.eq_of_toNat_eq; simp; omega
  · next h =>
    have : s.dt = BitVec.ofNat 8 (s.dt.toNat - 1) := by apply BitVec.eq_of_toNat_eq; simp; omega
    rw [← this]; rfl

/-- A sound tick is one write: ST less one, and 0 stays 0. -/
theorem State.soundTick_eq : s.soundTick = s.soundWrite (BitVec.ofNat 8 (s.st.toNat - 1)) := by
  unfold State.soundTick
  split
  · next h => congr 1; apply BitVec.eq_of_toNat_eq; simp; omega
  · next h =>
    have : s.st = BitVec.ofNat 8 (s.st.toNat - 1) := by apply BitVec.eq_of_toNat_eq; simp; omega
    rw [← this]; rfl

theorem frame_delayTick : Frame [.delay] [] s s.delayTick := by
  rw [State.delayTick_eq]; exact frame_delayWrite s _

theorem frame_soundTick : Frame [.sound] [] s s.soundTick := by
  rw [State.soundTick_eq]; exact frame_soundWrite s _

/-! ## Keys -/

/-- Key k takes the level given; every other key keeps its own. -/
theorem State.keyRead_setKey (k j : KeyIdx) (down : Bool) :
    (s.setKey k down).keyRead j = if j = k then down else s.keyRead j := by
  simp only [State.keyRead_eq, State.keys_setKey, Fin.getElem_fin, Vector.getElem_set, Fin.val_inj, eq_comm]

/-! ## CPU reset -/

@[simp] theorem State.v_cpuReset : s.cpuReset.v = Vector.replicate 16 0#8 := rfl
@[simp] theorem State.pc_cpuReset : s.cpuReset.pc = 0x200#12 := rfl
@[simp] theorem State.i_cpuReset : s.cpuReset.i = 0#12 := rfl
@[simp] theorem State.stack_cpuReset : s.cpuReset.stack = [] := rfl
@[simp] theorem State.keyAwait_cpuReset : s.cpuReset.keyAwait = none := rfl
@[simp] theorem State.mem_cpuReset : s.cpuReset.mem = s.mem := rfl
@[simp] theorem State.video_cpuReset : s.cpuReset.video = s.video := rfl
@[simp] theorem State.keys_cpuReset : s.cpuReset.keys = s.keys := rfl
@[simp] theorem State.dt_cpuReset : s.cpuReset.dt = s.dt := rfl
@[simp] theorem State.st_cpuReset : s.cpuReset.st = s.st := rfl
@[simp] theorem State.draws_cpuReset : s.cpuReset.draws = s.draws := rfl
@[simp] theorem State.params_cpuReset : s.cpuReset.params = s.params := rfl
@[simp] theorem State.reg_cpuReset (q : RegIdx) : s.cpuReset.reg q = 0#8 := by simp [State.reg]
@[simp] theorem State.memRead_cpuReset (c : Addr) : s.cpuReset.memRead c = s.memRead c := rfl
@[simp] theorem State.pixelRead_cpuReset (cx cy : Nat) : s.cpuReset.pixelRead cx cy = s.pixelRead cx cy := rfl
@[simp] theorem State.keyRead_cpuReset (c : KeyIdx) : s.cpuReset.keyRead c = s.keyRead c := rfl

/-! ## The key poll and the operations -/

theorem frame_keyPoll (r : RegIdx) : Frame [.keyAwait] [r] s (s.keyPoll r) := by
  rcases s.keyPoll_cases r with ⟨_, e⟩ | ⟨_, _, _, e⟩ <;> rw [e]
  · exact Frame.refl _ _ _
  · exact ((frame_setReg s r _).mono (by simp) (by simp)).trans ((frame_setKeyAwait _ _).mono (by simp) (by simp))

/-- Each operation's answer: a step's own, and for the others a next state. -/
@[simp] theorem applyOp_step : applyOp .step s = step s := rfl
@[simp] theorem applyOp_delayTick : applyOp .delayTick s = .next s.delayTick := rfl
@[simp] theorem applyOp_soundTick : applyOp .soundTick s = .next s.soundTick := rfl
@[simp] theorem applyOp_setKey (k : KeyIdx) (down : Bool) : applyOp (.setKey k down) s = .next (s.setKey k down) := rfl
@[simp] theorem applyOp_cpuReset : applyOp .cpuReset s = .next s.cpuReset := rfl

/-! ## Construction -/

/-- An accepted construction: the image fits, and the state is State.reset with the constructed memory and the
parameters. -/
theorem State.construct_eq_some {p : Params} {f : Vector Byte 80} {m : Vector Byte 4096} {image : List Byte}
    {t : State} :
    State.construct p f m image = some t ↔
      image.length ≤ 0xE00 ∧ t = { State.reset with mem := Memory.construct f m image, params := p } := by
  unfold State.construct
  split
  · next h => simp [h, eq_comm]
  · next h => simp [h]

/-- The constructed memory is canonical while the image fits. -/
theorem Memory.wf_construct (f : Vector Byte 80) (m : Vector Byte 4096) {image : List Byte}
    (h : image.length ≤ 0xE00) : (Memory.construct f m image).wf = true :=
  Memory.wf_load _ (by omega) (Memory.wf_load _ (by simp) (Memory.wf_load _ (by simp) rfl))

end Sys2Proof.Machine
end

