-- ==== Sys2Proof/Tests/Slice0.lean ====
section
/-! SUPPORT. The author's own tests: ill-formed terms refused, words written out from 30_encoding.md R83, single steps
with the expected values of 95_test_vectors.md (named by their ids), and for each statement with hypotheses a concrete
state that meets them. -/

namespace Sys2Proof.Tests.Slice0
open Sys2Proof Sys2Proof.Machine

/-! ## Well-formedness -/

theorem test_sys_of_cls_is_ill_formed : (Instr.sys 0x0E0#12).wellFormed = false := by decide
theorem test_sys_of_ret_is_ill_formed : (Instr.sys 0x0EE#12).wellFormed = false := by decide
theorem test_sys_beside_them_is_well_formed :
    (Instr.sys 0x0E1#12).wellFormed = true ∧ (Instr.sys 0x0EF#12).wellFormed = true := by decide

/-! ## Decoding: one word of every pattern, written out from R83 -/

theorem test_decode_control :
    decode 0b0000_0000_1110_1110#16 = .ok .ret ∧ decode 0b0000_0010_1010_0001#16 = .ok (.sys 0x2A1#12) ∧
    decode 0b0001_1010_1011_1100#16 = .ok (.jp 0xABC#12) ∧ decode 0b0010_0100_0000_0001#16 = .ok (.call 0x401#12) ∧
    decode 0b0011_0011_0100_0010#16 = .ok (.seImm 3 0x42#8) ∧
    decode 0b0100_0011_0100_0010#16 = .ok (.sneImm 3 0x42#8) ∧
    decode 0b0101_0001_0010_0000#16 = .ok (.seReg 1 2) ∧ decode 0b1001_0001_0010_0000#16 = .ok (.sneReg 1 2) ∧
    decode 0b1011_0001_0010_0011#16 = .ok (.jpV0 0x123#12) := by decide

theorem test_decode_immediate :
    decode 0b0110_1010_0100_0010#16 = .ok (.ldImm 10 0x42#8) ∧ decode 0b0111_0001_1111_0000#16 = .ok (.addImm 1 0xF0#8) ∧
    decode 0b1100_0011_0000_1111#16 = .ok (.rnd 3 0x0F#8) := by decide

theorem test_decode_register_pair :
    decode 0b1000_0001_0010_0000#16 = .ok (.ldReg 1 2) ∧ decode 0b1000_0001_0010_0001#16 = .ok (.orReg 1 2) ∧
    decode 0b1000_0001_0010_0010#16 = .ok (.andReg 1 2) ∧ decode 0b1000_0001_0010_0011#16 = .ok (.xorReg 1 2) ∧
    decode 0b1000_0001_0010_0100#16 = .ok (.addReg 1 2) ∧ decode 0b1000_0001_0010_0101#16 = .ok (.subReg 1 2) ∧
    decode 0b1000_0001_0010_0110#16 = .ok (.shr 1 2) ∧ decode 0b1000_0001_0010_0111#16 = .ok (.subn 1 2) ∧
    decode 0b1000_0001_0010_1110#16 = .ok (.shl 1 2) := by decide

theorem test_decode_index_memory :
    decode 0b1010_0001_0010_0011#16 = .ok (.ldI 0x123#12) ∧ decode 0b1111_0010_0001_1110#16 = .ok (.addI 2) ∧
    decode 0b1111_0010_0010_1001#16 = .ok (.ldF 2) ∧ decode 0b1111_0010_0011_0011#16 = .ok (.ldB 2) ∧
    decode 0b1111_0010_0101_0101#16 = .ok (.ldMemVx 2) ∧ decode 0b1111_0010_0110_0101#16 = .ok (.ldVxMem 2) := by decide

theorem test_decode_display_keypad_timers :
    decode 0b0000_0000_1110_0000#16 = .ok .cls ∧ decode 0b1101_0001_0010_0101#16 = .ok (.drw 1 2 5#4) ∧
    decode 0b1110_0010_1001_1110#16 = .ok (.skp 2) ∧ decode 0b1110_0010_1010_0001#16 = .ok (.sknp 2) ∧
    decode 0b1111_0010_0000_0111#16 = .ok (.ldVxDt 2) ∧ decode 0b1111_0010_0000_1010#16 = .ok (.ldVxK 2) ∧
    decode 0b1111_0010_0001_0101#16 = .ok (.ldDtVx 2) ∧ decode 0b1111_0010_0001_1000#16 = .ok (.ldStVx 2) := by decide

/-- A-3 to A-6, at the ends of the unmatched ranges of R86. -/
theorem test_decode_unmatched :
    decode 0x5121#16 = .error .word5xyn ∧ decode 0x512F#16 = .error .word5xyn ∧
    decode 0x9121#16 = .error .word9xyn ∧ decode 0x912F#16 = .error .word9xyn ∧
    decode 0x8018#16 = .error .word8xyn ∧ decode 0x801D#16 = .error .word8xyn ∧ decode 0x801F#16 = .error .word8xyn ∧
    decode 0xE000#16 = .error .wordExnn ∧ decode 0xE19F#16 = .error .wordExnn ∧ decode 0xE1A0#16 = .error .wordExnn ∧
    decode 0xF000#16 = .error .wordFxnn ∧ decode 0xF116#16 = .error .wordFxnn ∧ decode 0xF0FF#16 = .error .wordFxnn := by
  decide

/-- A-7: 0NNN beside 00E0 and 00EE. -/
theorem test_decode_sys_neighbours :
    decode 0x0000#16 = .ok (.sys 0x000#12) ∧ decode 0x00E1#16 = .ok (.sys 0x0E1#12) ∧
    decode 0x00EF#16 = .ok (.sys 0x0EF#12) ∧ decode 0x0EE0#16 = .ok (.sys 0xEE0#12) := by decide

theorem test_decode_table_word :
    decodeTableWord 16 0x6A42 = some (.ldImm 10 0x42#8) ∧ decodeTableWord 16 0x8018 = none := by decide

/-! ## Single steps -/

/-- The base state of 95_test_vectors.md with bytes stored from an address, PC there. -/
def at_ (a : Addr) (bytes : List Byte) : State :=
  { State.reset with mem := Memory.load [] a.toNat bytes, pc := a }
/-- The same at the entry point. -/
def image (bytes : List Byte) : State := at_ 0x200#12 bytes
/-- Registers set. -/
def regs (l : List (RegIdx × Byte)) (s : State) : State := l.foldl (fun t p => t.setReg p.1 p.2) s
/-- I set and bytes stored from it. -/
def data (a : Addr) (bytes : List Byte) (s : State) : State := { s with i := a, mem := s.mem.load a.toNat bytes }
/-- Pixels lit. -/
def lit (l : List (Nat × Nat)) (s : State) : State := l.foldl (fun t p => t.pixelWrite p.1 p.2 true) s
/-- Whether a result is a next state that passes a check. -/
def after (r : Result) (f : State → Bool) : Bool :=
  match r with
  | .next t => f t
  | .fault _ => false
  | .refused _ => false
/-- Whether a result is the model fault at an address, leaving PC and STACK as said. -/
def faultsAt (r : Result) (a left : Addr) (stack : List Addr) : Bool :=
  match r with
  | .fault (.stackOverflow b t) => a == b && t.pc == left && t.stack == stack
  | .fault (.keyIndexOutOfRange b t) => a == b && t.pc == left && t.stack == stack
  | .next _ => false
  | .refused _ => false

/-- R112, A-2: the fetch advance wraps. -/
theorem test_fetch_wraps :
    after (step (at_ 0xFFE#12 [0x61, 0x23])) (fun t => t.reg 1 == 0x23#8 && t.pc == 0x000#12) = true := by decide
/-- B-8: an opcode across the top of memory. -/
theorem test_fetch_across_the_top :
    after (step { State.reset with mem := Memory.load (Memory.load [] 0xFFF [0x24]) 0 [0x00], pc := 0xFFF#12 })
      (fun t => t.pc == 0x400#12 && t.stack == [0x001#12]) = true := by decide
/-- A-5. -/
theorem test_unmatched_is_no_op :
    after (step (regs [(0, 0x12), (1, 0x34)] (image [0x80, 0x18])))
      (fun t => t == (regs [(0, 0x12), (1, 0x34)] (image [0x80, 0x18])).setPc 0x202#12) = true := by decide
/-- A-8. -/
theorem test_key_poll_without_key :
    after (step { State.reset with keyAwait := some 2, pc := 0x204#12 })
      (fun t => t == { State.reset with keyAwait := some 2, pc := 0x204#12 }) = true := by decide
/-- A-9. -/
theorem test_key_poll_lowest_key :
    after (step (({ State.reset with keyAwait := some 2 }.setKey 3 true).setKey 1 true))
      (fun t => t.reg 2 == 1#8 && t.keyAwait == none && t.pc == 0x200#12) = true := by decide
/-- A-10. -/
theorem test_key_poll_writes_vf :
    after (step (regs [(15, 1)] ({ State.reset with keyAwait := some 15 }.setKey 12 true)))
      (fun t => t.reg 15 == 0x0C#8 && t.keyAwait == none) = true := by decide
/-- The host's placing of a table word: the very next step runs it, even from a key wait. -/
theorem test_with_fetch_word :
    after (step ({ State.reset with keyAwait := some 2 }.withFetchWord 16 0x6A42))
      (fun t => t.reg 10 == 0x42#8 && t.pc == 0x202#12) = true := by decide

/-! ### Control transfer -/

/-- B-2. -/
theorem test_ret_pops_newest :
    after (step { image [0x00, 0xEE] with stack := [0x30A#12, 0x204#12] })
      (fun t => t.pc == 0x30A#12 && t.stack == [0x204#12]) = true := by decide
/-- L1-7. -/
theorem test_ret_on_empty_stack :
    after (step (at_ 0x300#12 [0x00, 0xEE])) (fun t => t == (at_ 0x300#12 [0x00, 0xEE]).setPc 0x302#12) = true := by decide
/-- A-7. -/
theorem test_sys :
    after (step (image [0x01, 0x23])) (fun t => t == (image [0x01, 0x23]).setPc 0x202#12) = true := by decide
/-- B-4. -/
theorem test_jp_to_odd_address : after (step (image [0x12, 0x01])) (fun t => t.pc == 0x201#12) = true := by decide
/-- B-7. -/
theorem test_call_pushes_wrapped_address :
    after (step (at_ 0xFFE#12 [0x24, 0x00])) (fun t => t.pc == 0x400#12 && t.stack == [0x000#12]) = true := by decide
/-- B-9. -/
theorem test_call_overflows_finite_stack :
    faultsAt (step { at_ 0x400#12 [0x25, 0x00] with stack := [0x302#12, 0x202#12], params := ⟨some 2, .draw⟩ })
      0x400#12 0x402#12 [0x302#12, 0x202#12] = true := by decide
/-- B-12. -/
theorem test_se_imm_skip_wraps :
    after (step (regs [(3, 0x42)] (at_ 0xFFC#12 [0x33, 0x42]))) (fun t => t.pc == 0x000#12) = true := by decide
/-- B-11. -/
theorem test_se_imm_no_skip :
    after (step (regs [(3, 0x42)] (image [0x33, 0x43]))) (fun t => t.pc == 0x202#12) = true := by decide
/-- B-13. -/
theorem test_sne_imm_no_skip :
    after (step (regs [(3, 0x42)] (image [0x43, 0x42]))) (fun t => t.pc == 0x202#12) = true := by decide
/-- B-14. -/
theorem test_sne_imm_skip :
    after (step (regs [(3, 0x42)] (image [0x43, 0x43]))) (fun t => t.pc == 0x204#12) = true := by decide
/-- B-15. -/
theorem test_se_reg_skip :
    after (step (regs [(1, 7), (2, 7)] (image [0x51, 0x20]))) (fun t => t.pc == 0x204#12) = true := by decide
/-- B-16. -/
theorem test_se_reg_no_skip :
    after (step (regs [(1, 7), (2, 8)] (image [0x51, 0x20]))) (fun t => t.pc == 0x202#12) = true := by decide
/-- B-18. -/
theorem test_sne_reg_skip :
    after (step (regs [(1, 7), (2, 8)] (image [0x91, 0x20]))) (fun t => t.pc == 0x204#12) = true := by decide
/-- B-19. -/
theorem test_sne_reg_no_skip : after (step (image [0x91, 0x10])) (fun t => t.pc == 0x202#12) = true := by decide
/-- B-21. -/
theorem test_jp_v0_wraps :
    after (step (regs [(0, 2)] (image [0xBF, 0xFF]))) (fun t => t.pc == 0x001#12) = true := by decide
/-- B-23. -/
theorem test_jp_v0_ignores_x :
    after (step (regs [(0, 1), (1, 0x50)] (image [0xB1, 0x23]))) (fun t => t.pc == 0x124#12) = true := by decide

/-! ### Arithmetic and logic -/

/-- L1-1 (a). -/
theorem test_ld_imm : after (step (image [0x6A, 0x42])) (fun t => t.reg 10 == 0x42#8 && t.pc == 0x202#12) = true := by
  decide
/-- L1-2 (a). -/
theorem test_add_imm_keeps_vf :
    after (step (regs [(0, 0xF0), (15, 0x5A)] (image [0x70, 0x20]))) (fun t => t.reg 0 == 0x10#8 && t.reg 15 == 0x5A#8) =
      true := by decide
/-- C-4. -/
theorem test_ld_reg :
    after (step (regs [(1, 0x99)] (image [0x80, 0x10]))) (fun t => t.reg 0 == 0x99#8 && t.reg 1 == 0x99#8) = true := by
  decide
/-- C-5. -/
theorem test_or_keeps_vf :
    after (step (regs [(0, 0xF0), (1, 0x0F), (15, 0x77)] (image [0x80, 0x11])))
      (fun t => t.reg 0 == 0xFF#8 && t.reg 15 == 0x77#8) = true := by decide
/-- C-6. -/
theorem test_and_keeps_vf :
    after (step (regs [(0, 0xF0), (1, 0x3C), (15, 0x77)] (image [0x80, 0x12])))
      (fun t => t.reg 0 == 0x30#8 && t.reg 15 == 0x77#8) = true := by decide
/-- C-7. -/
theorem test_xor :
    after (step (regs [(0, 0xF0), (1, 0x3C)] (image [0x80, 0x13]))) (fun t => t.reg 0 == 0xCC#8) = true := by decide
/-- L1-3 (a). -/
theorem test_add_reg_carry :
    after (step (regs [(0, 0x55), (1, 0xAF)] (image [0x80, 0x14]))) (fun t => t.reg 0 == 0x04#8 && t.reg 15 == 1#8) =
      true := by decide
/-- C-12. -/
theorem test_add_reg_flag_wins :
    after (step (regs [(15, 0xFF), (1, 1)] (image [0x8F, 0x14]))) (fun t => t.reg 15 == 1#8) = true := by decide
/-- L1-4 (a). -/
theorem test_sub_borrow :
    after (step (regs [(0, 5), (1, 10)] (image [0x80, 0x15]))) (fun t => t.reg 0 == 0xFB#8 && t.reg 15 == 0#8) = true := by
  decide
/-- C-15. -/
theorem test_sub_equal :
    after (step (regs [(0, 0x33), (1, 0x33)] (image [0x80, 0x15]))) (fun t => t.reg 0 == 0#8 && t.reg 15 == 1#8) =
      true := by decide
/-- C-19. -/
theorem test_shr_takes_vy :
    after (step (regs [(0, 0xAA), (1, 5)] (image [0x80, 0x16])))
      (fun t => t.reg 0 == 2#8 && t.reg 15 == 1#8 && t.reg 1 == 5#8) = true := by decide
/-- C-22. -/
theorem test_shr_of_vf :
    after (step (regs [(15, 0x81)] (image [0x80, 0xF6]))) (fun t => t.reg 0 == 0x40#8 && t.reg 15 == 1#8) = true := by
  decide
/-- C-24. -/
theorem test_subn_borrow :
    after (step (regs [(0, 10), (1, 5)] (image [0x80, 0x17]))) (fun t => t.reg 0 == 0xFB#8 && t.reg 15 == 0#8) = true := by
  decide
/-- C-25. -/
theorem test_subn :
    after (step (regs [(0, 5), (1, 10)] (image [0x80, 0x17]))) (fun t => t.reg 0 == 5#8 && t.reg 15 == 1#8) = true := by
  decide
/-- C-28. -/
theorem test_shl_takes_vy :
    after (step (regs [(0, 1), (1, 0x81)] (image [0x80, 0x1E]))) (fun t => t.reg 0 == 2#8 && t.reg 15 == 1#8) = true := by
  decide
/-- C-30. -/
theorem test_shl_flag_wins :
    after (step (regs [(1, 0x80)] (image [0x8F, 0x1E]))) (fun t => t.reg 15 == 1#8) = true := by decide
/-- C-31, for every draw. -/
theorem test_rnd_masks_the_draw :
    step (image [0xC3, 0x0F]) =
      .next { (image [0xC3, 0x0F]).setReg 3 (Config.freeByte 0 &&& 0x0F#8) with pc := 0x202#12, draws := 1 } := by rfl

/-! ### Index register and memory -/

/-- D-1. -/
theorem test_ld_i : after (step (image [0xA1, 0x23])) (fun t => t.i == 0x123#12) = true := by decide
/-- D-3. -/
theorem test_add_i_wraps :
    after (step (regs [(0, 1), (15, 1)] { image [0xF0, 0x1E] with i := 0xFFF#12 }))
      (fun t => t.i == 0x000#12 && t.reg 15 == 1#8) = true := by decide
/-- D-4. -/
theorem test_ld_f : after (step (regs [(0, 0x0F)] (image [0xF0, 0x29]))) (fun t => t.i == 0x04B#12) = true := by decide
/-- D-6. -/
theorem test_ld_f_takes_the_whole_byte :
    after (step (regs [(0, 0xFF)] (image [0xF0, 0x29]))) (fun t => t.i == 0x4FB#12) = true := by decide
/-- D-7. -/
theorem test_ld_b :
    after (step (regs [(0, 156)] { image [0xF0, 0x33] with i := 0x300#12 }))
      (fun t => t.memRead 0x300 == 1#8 && t.memRead 0x301 == 5#8 && t.memRead 0x302 == 6#8 && t.i == 0x300#12) = true := by
  decide
/-- D-11. -/
theorem test_ld_b_wraps :
    after (step (regs [(0, 123)] { image [0xF0, 0x33] with i := 0xFFF#12 }))
      (fun t => t.memRead 0xFFF == 1#8 && t.memRead 0x000 == 2#8 && t.memRead 0x001 == 3#8) = true := by decide
/-- D-13. -/
theorem test_ld_mem_vx_wraps :
    after (step (regs [(0, 0x0A), (1, 0x0B), (2, 0x0C)] { image [0xF2, 0x55] with i := 0xFFE#12 }))
      (fun t => t.memRead 0xFFE == 0x0A#8 && t.memRead 0xFFF == 0x0B#8 && t.memRead 0x000 == 0x0C#8 &&
        t.memRead 0x001 == 0x90#8 && t.i == 0x001#12) = true := by decide
/-- D-18. -/
theorem test_ld_mem_vx_over_itself :
    after (step (regs [(0, 0x55)] { at_ 0x300#12 [0xF0, 0x55] with i := 0x300#12 }))
      (fun t => t.memRead 0x300 == 0x55#8 && t.i == 0x301#12 && t.pc == 0x302#12) = true := by decide
/-- D-16. -/
theorem test_ld_vx_mem_reads_font :
    after (step (image [0xF4, 0x65]))
      (fun t => t.reg 0 == 0xF0#8 && t.reg 1 == 0x90#8 && t.reg 3 == 0x90#8 && t.reg 4 == 0xF0#8 && t.reg 5 == 0#8 &&
        t.i == 0x005#12) = true := by decide
/-- D-17. -/
theorem test_ld_vx_mem_wraps :
    after (step (data 0xFFF#12 [0x11] (image [0xF1, 0x65])))
      (fun t => t.reg 0 == 0x11#8 && t.reg 1 == 0xF0#8 && t.i == 0x001#12) = true := by decide

/-! ### Display -/

/-- E-1. -/
theorem test_cls :
    after (step (regs [(15, 1)] (lit [(0, 0), (63, 31)] (image [0x00, 0xE0]))))
      (fun t => t.video == State.reset.video && t.reg 15 == 1#8) = true := by decide
/-- E-3. -/
theorem test_drw_wraps_columns :
    after (step (regs [(0, 62)] (data 0x300#12 [0xFF] (image [0xD0, 0x11]))))
      (fun t => t.video == (lit [(62, 0), (63, 0), (0, 0), (1, 0), (2, 0), (3, 0), (4, 0), (5, 0)] State.reset).video &&
        t.reg 15 == 0#8) = true := by decide
/-- E-5. -/
theorem test_drw_collision :
    after (step (lit [(1, 0), (5, 0)] (data 0x300#12 [0xC0] (image [0xD0, 0x11]))))
      (fun t => t.video == (lit [(0, 0), (5, 0)] State.reset).video && t.reg 15 == 1#8) = true := by decide

/-! ### Keypad and timers -/

/-- F-1. -/
theorem test_skp :
    after (step (regs [(2, 5)] ((image [0xE2, 0x9E]).setKey 5 true))) (fun t => t.pc == 0x204#12) = true := by decide
/-- F-8. -/
theorem test_skp_out_of_range_faults :
    faultsAt (step (regs [(2, 0x15)] { image [0xE2, 0x9E] with params := ⟨none, .fault⟩ }))
      0x200#12 0x202#12 [] = true := by decide
/-- F-4. -/
theorem test_sknp : after (step (regs [(2, 5)] (image [0xE2, 0xA1]))) (fun t => t.pc == 0x204#12) = true := by decide
/-- F-6. -/
theorem test_sknp_out_of_range_masks :
    after (step (regs [(2, 0x15)] ({ image [0xE2, 0xA1] with params := ⟨none, .mask⟩ }.setKey 5 true)))
      (fun t => t.pc == 0x202#12) = true := by decide
/-- F-9. -/
theorem test_ld_vx_dt :
    after (step { image [0xF4, 0x07] with dt := 0x3C#8 }) (fun t => t.reg 4 == 0x3C#8 && t.dt == 0x3C#8) = true := by decide
/-- F-16. -/
theorem test_ld_vx_k :
    after (step (image [0xFF, 0x0A])) (fun t => t.keyAwait == some 15 && t.pc == 0x202#12 && t.reg 15 == 0#8) = true := by
  decide
/-- F-10. -/
theorem test_ld_dt_vx :
    after (step (regs [(4, 0x10)] (image [0xF4, 0x15]))) (fun t => t.dt == 0x10#8 && t.st == 0#8) = true := by decide
/-- F-11. -/
theorem test_ld_st_vx :
    after (step (regs [(4, 1)] (image [0xF4, 0x18]))) (fun t => t.st == 1#8 && t.dt == 0#8 && t.beeping) = true := by decide
/-- F-13, F-12. -/
theorem test_ticks :
    ({ State.reset with dt := 2#8, st := 5#8 }.delayTick) = { State.reset with dt := 1#8, st := 5#8 } ∧
    ({ State.reset with st := 1#8 }.soundTick) = State.reset ∧ State.reset.beeping = false := by decide
/-- A tick at 0 stays at 0 (R287, R288). -/
theorem test_ticks_stop_at_zero : State.reset.delayTick = State.reset ∧ State.reset.soundTick = State.reset := by decide

/-- R296: a key pressed and then released is up, and the others are as they were. -/
theorem test_set_key_releases :
    ((State.reset.setKey 5 true).setKey 15 true).setKey 5 false = State.reset.setKey 15 true ∧
    (State.reset.setKey 15 true).keyRead 15 = true := by decide

/-! ### Reset and construction -/

/-- G-2, G-3. -/
theorem test_cpu_reset_keeps_the_store :
    (regs [(7, 1)] (lit [(3, 3)]
      { State.reset with keyAwait := some 3, i := 5#12, stack := [2#12], dt := 0x20#8, st := 0x10#8 })).cpuReset =
      lit [(3, 3)] { State.reset with dt := 0x20#8, st := 0x10#8 } := by decide
/-- G-5. -/
theorem test_construct_refuses_a_long_image (f : Vector Byte 80) (m : Vector Byte 4096) :
    State.construct Params.default f m (List.replicate 0xE01 0#8) = none :=
  if_neg (by rw [List.length_replicate]; decide)

/-! ## Witnesses: for each statement with hypotheses, a state and operands that meet them together -/

theorem witness_DecodeOfEncode :
    (Instr.drw 15 15 15#4).wellFormed = true ∧ (Instr.sys 0xFFF#12).wellFormed = true := by decide
theorem witness_EncodeOfDecode : decode 0xDFFF#16 = .ok (.drw 15 15 15#4) := by decide

/-- At 0xFFF, so that the second byte's address wraps onto the font. -/
theorem witness_StepRunsTheDecodedInstruction :
    let s := at_ 0xFFF#12 [0x6A]
    s.keyAwait = none ∧ decodeBytes (s.memRead s.pc) (s.memRead (s.pc + 1#12)) = .ok (.ldImm 10 0xF0#8) := by decide
theorem witness_UnmatchedWordIsNoOp :
    let s := image [0x51, 0x21]
    s.keyAwait = none ∧ decodeBytes (s.memRead s.pc) (s.memRead (s.pc + 1#12)) = .error .word5xyn := by decide

theorem witness_KeyPoll_no_key :
    let s := { State.reset with keyAwait := some 15 }
    s.keyAwait = some 15 ∧ ∀ k, s.keyRead k = false := by decide
theorem witness_KeyPoll_highest_key :
    let s := { State.reset with keyAwait := some 15 }.setKey 15 true
    s.keyAwait = some 15 ∧ s.keyRead 15 = true ∧ ∀ j, j < 15 → s.keyRead j = false := by decide

theorem witness_FaultFree : FaultFree State.reset.params := ⟨rfl, by decide⟩
/-- The same two words fault at the other parameters (B-9 and F-8 above), and do not at the defaults. -/
theorem witness_ModelFaults_not_at_defaults :
    after (step (image [0x25, 0x00])) (fun t => t.pc == 0x500#12) = true ∧
    decode (image [0x25, 0x00]).fetchWord = .ok (.call 0x500#12) ∧
    decode (image [0xE2, 0x9E]).fetchWord = .ok (.skp 2) := by decide

theorem witness_PcAfterStep_waiting :
    ∃ s t : State, step s = .next t ∧ s.keyAwait = some 2 := ⟨{ State.reset with keyAwait := some 2 }, _, rfl, rfl⟩
theorem witness_PcAfterStep_instruction :
    ∃ s t : State, step s = .next t ∧ s.keyAwait = none ∧ decode s.fetchWord = .ok (.jp 0xABC#12) :=
  ⟨image [0x1A, 0xBC], _, rfl, rfl, by decide⟩
theorem witness_PcAfterStep_unmatched :
    ∃ s t : State, step s = .next t ∧ s.keyAwait = none ∧ decode s.fetchWord = .error .wordFxnn :=
  ⟨image [0xF0, 0xFF], _, rfl, rfl, by decide⟩

/-- A finite stack, with room for the last entry, and a CALL that takes it. -/
theorem witness_StepKeepsInvariant :
    ∃ s t : State, CoreInv s ∧ step s = .next t ∧ s.params.stackCapacity = some 1 ∧ t.stack = [0x202#12] :=
  ⟨{ image [0x24, 0x00] with params := ⟨some 1, .draw⟩ }, _,
    ⟨by decide, fun c h => by cases h; decide⟩, rfl, rfl, by decide⟩
/-- A stack that is full, and a CPU reset that empties it. -/
theorem witness_EveryOperationKeepsInvariant :
    ∃ s t : State, CoreInv s ∧ applyOp .cpuReset s = .next t ∧ s.params.stackCapacity = some 1 ∧ s.stack.length = 1 :=
  ⟨{ State.reset with stack := [0x202#12], params := ⟨some 1, .draw⟩ }, _,
    ⟨by decide, fun c h => by cases h; decide⟩, rfl, rfl, rfl⟩
/-- No room at all, and the longest image. -/
theorem witness_ConstructionHasInvariant :
    ∃ s : State, State.construct ⟨some 0, .fault⟩ (Vector.replicate 80 0#8) (Vector.replicate 4096 0#8)
      (List.replicate 0xE00 0xFF#8) = some s :=
  ⟨_, if_pos (Nat.le_of_eq List.length_replicate)⟩
theorem witness_Reachable : ∃ s : State, Reachable s ∧ s.keyRead 7 = true :=
  ⟨_, .op .cpuReset (.op (.setKey 7 true) (.construct Params.default (Vector.replicate 80 0#8)
    (Vector.replicate 4096 0#8) [0x12, 0x00] (if_pos (by decide))) rfl) rfl, rfl⟩

theorem witness_RegistersAccessed :
    ∃ t : State, exec (.ldReg 0 1) State.reset = .next t ∧ (2 : RegIdx) ∉ regsWritten (.ldReg 0 1) ∧
      2 ∉ regsRead (.ldReg 0 1) ∧ (0 : RegIdx) ∈ regsWritten (.ldReg 0 1) ∧ 0 ∉ regsRead (.ldReg 0 1) :=
  ⟨_, rfl, by decide⟩

theorem witness_StoreChanges_video :
    ∃ t : State, applyOp .step (lit [(63, 31)] (image [0x00, 0xE0])) = .next t ∧
      t.pixelRead 63 31 ≠ (lit [(63, 31)] (image [0x00, 0xE0])).pixelRead 63 31 := ⟨_, rfl, by decide⟩
theorem witness_StoreChanges_keys :
    ∃ t : State, applyOp (.setKey 15 true) State.reset = .next t ∧ t.keyRead 15 ≠ State.reset.keyRead 15 :=
  ⟨_, rfl, by decide⟩
theorem witness_StoreChanges_timers :
    (∃ t : State, applyOp .delayTick { State.reset with dt := 1#8 } = .next t ∧ t.dt ≠ 1#8) ∧
    (∃ t : State, applyOp .soundTick { State.reset with st := 1#8 } = .next t ∧ t.st ≠ 1#8) :=
  ⟨⟨_, rfl, by decide⟩, ⟨_, rfl, by decide⟩⟩
theorem witness_StoreChanges_memory :
    ∃ t : State, applyOp .step (image [0xF0, 0x55]) = .next t ∧
      t.memRead 0x000#12 ≠ (image [0xF0, 0x55]).memRead 0x000#12 := ⟨_, rfl, by decide⟩

theorem witness_CpuStateChanges_register :
    (∃ t : State, applyOp .step (image [0x6F, 0x01]) = .next t ∧ t.reg 15 ≠ (image [0x6F, 0x01]).reg 15) ∧
    (∃ t : State, applyOp .step ({ State.reset with keyAwait := some 15 }.setKey 15 true) = .next t ∧ t.reg 15 ≠ 0#8) ∧
    (∃ t : State, applyOp .cpuReset (regs [(15, 1)] State.reset) = .next t ∧ t.reg 15 ≠ 1#8) :=
  ⟨⟨_, rfl, by decide⟩, ⟨_, rfl, by decide⟩, ⟨_, rfl, by decide⟩⟩
theorem witness_CpuStateChanges_pc :
    (∃ t : State, applyOp .step (image [0x00, 0x00]) = .next t ∧ t.pc ≠ (image [0x00, 0x00]).pc) ∧
    (∃ t : State, applyOp .cpuReset (at_ 0xFFF#12 []) = .next t ∧ t.pc ≠ 0xFFF#12) :=
  ⟨⟨_, rfl, by decide⟩, ⟨_, rfl, by decide⟩⟩
theorem witness_CpuStateChanges_index_stack :
    (∃ t : State, applyOp .step (image [0xA0, 0x01]) = .next t ∧ t.i ≠ (image [0xA0, 0x01]).i) ∧
    (∃ t : State, applyOp .step (image [0x24, 0x00]) = .next t ∧ t.stack ≠ (image [0x24, 0x00]).stack) :=
  ⟨⟨_, rfl, by decide⟩, ⟨_, rfl, by decide⟩⟩
theorem witness_CpuStateChanges_wait_draws :
    (∃ t : State, applyOp .step (image [0xF3, 0x0A]) = .next t ∧ t.keyAwait ≠ (image [0xF3, 0x0A]).keyAwait) ∧
    (∃ t : State, applyOp .step (image [0xC3, 0x0F]) = .next t ∧ t.draws ≠ (image [0xC3, 0x0F]).draws) :=
  ⟨⟨_, rfl, by decide⟩, ⟨_, rfl, by decide⟩⟩

/-- A store that is nothing but its answers, ST left out. -/
def answersBus : Bus Answers where
  memRead p := p.mem
  memWrite p a w := { p with mem := fun c => if c = a then w else p.mem c }
  keyRead p := p.key
  screenClear p := { p with pixel := fun _ _ => false }
  pixelRead p x y := p.pixel (x % 64) (y % 32)
  pixelWrite p x y b := { p with pixel := fun cx cy => if cx % 64 = x % 64 ∧ cy % 32 = y % 32 then b else p.pixel cx cy }
  delayRead p := p.delay
  delayWrite p w := { p with delay := w }
  soundWrite p _ := p

/-- A test store: the same, and it keeps the sounds written to it. -/
def recordingBus : Bus (Answers × List Byte) where
  memRead p := answersBus.memRead p.1
  memWrite p a w := (answersBus.memWrite p.1 a w, p.2)
  keyRead p := answersBus.keyRead p.1
  screenClear p := (answersBus.screenClear p.1, p.2)
  pixelRead p := answersBus.pixelRead p.1
  pixelWrite p x y b := (answersBus.pixelWrite p.1 x y b, p.2)
  delayRead p := answersBus.delayRead p.1
  delayWrite p w := (answersBus.delayWrite p.1 w, p.2)
  soundWrite p w := (answersBus.soundWrite p.1 w, w :: p.2)

theorem answersBus_lawful : answersBus.Lawful (fun _ => True) := by
  constructor <;> intros <;> first | trivial | simp [answersBus, Bus.answers]

theorem recordingBus_lawful : recordingBus.Lawful (fun _ => True) := by
  constructor <;> intros <;> first | trivial | simp [recordingBus, answersBus, Bus.answers]

/-- Two stores of different kinds that answer alike, and one has a sound on record. -/
theorem witness_StepDependsOnlyOnBusAnswers_stores :
    let p : Answers := storeBus.answers (image [0xF0, 0x18]).store
    answersBus.Lawful (fun _ => True) ∧ recordingBus.Lawful (fun _ => True) ∧
      Alike answersBus recordingBus ⟨(image [0xF0, 0x18]).split.cpu, p⟩ ⟨(image [0xF0, 0x18]).split.cpu, p, [7#8]⟩ :=
  ⟨answersBus_lawful, recordingBus_lawful, rfl, rfl⟩
/-- The engine beside the recording store: LD ST, V4 records its sound (F-11). -/
theorem test_engine_on_another_store :
    (match recordingBus.step ⟨(regs [(4, 1)] (image [0xF4, 0x18])).split.cpu,
        storeBus.answers (image [0xF4, 0x18]).store, []⟩ with
      | .next t => t.cpu.pc == 0x202#12 && t.store.2 == [1#8]
      | .fault _ _ _ => false) = true := by decide
/-- Two states that differ in ST alone. -/
theorem witness_StepDependsOnlyOnBusAnswers :
    ∃ s s' t : State, s.mem.wf = true ∧ s'.mem.wf = true ∧ SameAnswers s s' ∧ step s = .next t ∧ s ≠ s' :=
  ⟨image [0xF0, 0x07], { image [0xF0, 0x07] with st := 9#8 }, _, by decide, by decide,
    ⟨fun _ => rfl, rfl, rfl, rfl, rfl, fun _ => rfl, fun _ _ => rfl, fun _ => rfl, rfl, rfl, rfl⟩, rfl, by decide⟩

theorem witness_RetPops :
    State.reset.stack = [] ∧ { State.reset with stack := [0xFFF#12] }.stack = 0xFFF#12 :: [] := by decide
theorem witness_SysIsNoOp : 0x0EF#12 ≠ 0x0E0#12 ∧ 0x0EF#12 ≠ 0x0EE#12 := by decide
theorem witness_Call_unbounded (c : Nat) :
    State.reset.params.stackCapacity = some c → State.reset.stack.length < c := fun h => nomatch h
theorem witness_Call_last_entry (c : Nat) :
    let s := { State.reset with params := ⟨some 1, .draw⟩ }
    s.params.stackCapacity = some c → s.stack.length < c := fun h => by cases h; decide
theorem witness_Call_full :
    let s := { State.reset with stack := [0x202#12], params := ⟨some 1, .draw⟩ }
    s.params.stackCapacity = some 1 ∧ 1 ≤ s.stack.length := by decide
theorem witness_SkipOnRegisterCompare_unmatched : 0x1#4 ≠ 0x0#4 ∧ 0xF#4 ≠ 0x0#4 := by decide

/-- AddReg, Subtractions and Shifts: a destination that is not VF, the highest such. -/
theorem witness_destination_not_VF : (14 : RegIdx) ≠ VF := by decide

/-- MemoryWrites, LdB, LdMemVx and StoreThenLoad: a canonical memory; two addresses, the highest and the lowest; and
operands whose stored bytes go past the top. -/
theorem witness_canonical_memory :
    let s := data 0xFFF#12 [0x11] (image [0xF1, 0x55])
    s.mem.wf = true ∧ 0xFFF#12 ≠ 0x000#12 ∧ s.dataAddr 0 = 0xFFF#12 ∧ s.dataAddr 2 = 0x001#12 ∧
    (1 : RegIdx) ≤ 1 ∧ ∀ k, k < 3 → 0x002#12 ≠ s.dataAddr k := by decide

/-- At the right edge: column 5 of the sprite is pixel 3 of the row. -/
theorem witness_Drw_covered : SpriteCovers (data 0x300#12 [0xFF] State.reset) 62 31 1 3 31 :=
  ⟨0, 5, by decide⟩
/-- Past the sprite's eighth column, and below its last row. -/
theorem witness_Drw_not_covered :
    ¬SpriteCovers (data 0x300#12 [0xFF] State.reset) 62 31 1 6 31 ∧
    ¬SpriteCovers (data 0x300#12 [0xFF] State.reset) 62 31 1 3 0 := by
  constructor <;> rintro ⟨row, col, h1, h2, -, h3, h4⟩ <;> omega
theorem witness_Drw_collision :
    ∃ px py, SpriteCovers (lit [(3, 31)] (data 0x300#12 [0xFF] State.reset)) 62 31 1 px py ∧
      (lit [(3, 31)] (data 0x300#12 [0xFF] State.reset)).pixelRead px py = true :=
  ⟨3, 31, ⟨0, 5, by decide⟩, by decide⟩
theorem witness_Drw_no_collision (px py : Nat) :
    SpriteCovers (data 0x300#12 [0xFF] State.reset) 62 31 1 px py →
      (data 0x300#12 [0xFF] State.reset).pixelRead px py = false := fun _ => by
  simp [data, State.pixelRead, State.store, storeBus, Video.read, State.reset]
theorem witness_DrawingTwice_set_bit :
    let s := data 0x300#12 [0x01] State.reset
    (0 : RegIdx) ≠ VF ∧ (14 : RegIdx) ≠ VF ∧ (∀ px py, s.pixelRead px py = false) ∧
      ∃ row, row < (1#4 : Nibble).toNat ∧ s.memRead (s.dataAddr row) ≠ 0#8 :=
  ⟨by decide, by decide, fun px py => by simp [data, State.pixelRead, State.store, storeBus, Video.read, State.reset], 0, by decide, by decide⟩
theorem witness_DrawingTwice_zero_sprite :
    let s := { State.reset with i := 0x300#12 }
    ∀ row, row < (15#4 : Nibble).toNat → s.memRead (s.dataAddr row) = 0#8 := by decide

theorem witness_KeySkips : ((regs [(2, 15)] State.reset).reg 2).toNat = (15 : KeyIdx) := by decide
theorem witness_KeySkipsOutOfRange_draw :
    15 < ((regs [(2, 16)] State.reset).reg 2).toNat ∧ (regs [(2, 16)] State.reset).params.keyOorPolicy = .draw := by decide
theorem witness_KeySkipsOutOfRange_mask :
    let s := regs [(2, 255)] { State.reset with params := ⟨none, .mask⟩ }
    15 < (s.reg 2).toNat ∧ s.params.keyOorPolicy = .mask ∧ (s.reg 2).toNat % 16 = (15 : KeyIdx) := by decide
theorem witness_KeySkipsOutOfRange_not_pressed :
    let s := regs [(2, 16)] { State.reset with params := ⟨none, .notPressed⟩ }
    15 < (s.reg 2).toNat ∧ s.params.keyOorPolicy = .notPressed := by decide
theorem witness_KeySkipsOutOfRange_fault :
    let s := regs [(2, 16)] { State.reset with params := ⟨none, .fault⟩ }
    15 < (s.reg 2).toNat ∧ s.params.keyOorPolicy = .fault := by decide

theorem witness_KeyWait :
    let s := image [0xFF, 0x0A]
    s.keyAwait = none ∧ decode s.fetchWord = .ok (.ldVxK 15) ∧ ∀ j, s.keyRead j = false := by decide

theorem witness_Construction_longest : (List.replicate 0xE00 (0#8 : Byte)).length ≤ 0xE00 :=
  Nat.le_of_eq List.length_replicate
theorem witness_Construction_too_long : 0xE00 < (List.replicate 0xE01 (0#8 : Byte)).length := by
  rw [List.length_replicate]; decide
theorem witness_SetKey_other_key : (0 : KeyIdx) ≠ 15 := by decide
theorem witness_ResetIsTheEmptySession : ∃ f : Vector Byte 80, f.toList = font := ⟨⟨font.toArray, by decide⟩, rfl⟩

end Sys2Proof.Tests.Slice0
end

section
/-! PROOFS. The memory family (20_memory.md): pixel addressing (R59), the model's store as a lawful bus and the model's
step as the abstract step beside it, and the step's independence of the store behind the contract (R61). Both of the last
two are `PortsRel.step`, the one induction over the engine's code, at a relation of their own. -/

namespace Sys2Proof.Machine

/-! ## Pixels (R59) -/

/-- Settles O43: both halves hold of the frame buffer, whose coordinates are reduced on every access. -/
theorem pixelAccessWrapsAndIsLocal : Obligations.PixelAccessWrapsAndIsLocal :=
  fun s x y px py b => ⟨(Video.read_mod s.video x y).symm, s.pixelRead_pixelWrite x y px py b⟩

/-! ## The model's store is a lawful bus -/

theorem storeBus_memRead_memWrite {p : Store} (h : p.mem.wf = true) (a c : Addr) (w : Byte) :
    storeBus.memRead (storeBus.memWrite p a w) c = if c = a then w else storeBus.memRead p c := by
  simp only [storeBus, Memory.read_write h, BitVec.toNat_inj]

theorem storeBus_pixelRead_screenClear (p : Store) (x y : Nat) :
    storeBus.pixelRead (storeBus.screenClear p) x y = false := by
  simp [storeBus, Video.read]

theorem storeBus_pixelRead_pixelWrite (p : Store) (x y px py : Nat) (b : Bool) :
    storeBus.pixelRead (storeBus.pixelWrite p px py b) x y =
      if x % 64 = px % 64 ∧ y % 32 = py % 32 then b else storeBus.pixelRead p x y :=
  Video.read_write p.video x y px py b

/-- Only a memory write needs the canonical form, and only it could lose it. -/
theorem storeBus_lawful : storeBus.Lawful (fun p => p.mem.wf = true) where
  ok_memWrite _ a _ h := Memory.wf_write a.isLt h
  ok_screenClear _ h := h
  ok_pixelWrite _ _ _ _ h := h
  ok_delayWrite _ _ h := h
  ok_soundWrite _ _ h := h
  pixelRead_wraps p x y _ := (Video.read_mod p.video x y).symm
  answers_memWrite _ a w h := Answers.ext (funext fun c => storeBus_memRead_memWrite h a c w) rfl rfl rfl
  answers_screenClear p _ := Answers.ext rfl rfl (funext₂ (storeBus_pixelRead_screenClear p)) rfl
  answers_pixelWrite p x y b _ :=
    Answers.ext rfl rfl (funext₂ fun cx cy => storeBus_pixelRead_pixelWrite p cx cy x y b) rfl
  answers_delayWrite _ _ _ := rfl
  answers_soundWrite _ _ _ := rfl

/-! ## The model's step is the abstract step beside its store (R61) -/

/-- Every port of State is the bus's port on the split state. -/
theorem portsRel_split : PortsRel statePorts storeBus.ports (fun s p => s.split = p) := by
  constructor <;> (rintro s _ rfl; intros; rfl)

/-- The three answers of a step, each with the abstract step's answer beside the model's store. -/
theorem step_cases_split (s : State) :
    (∃ t, step s = .next t ∧ storeBus.step s.split = .next t.split) ∨
    (∃ a t, step s = .fault (.stackOverflow a t) ∧ storeBus.step s.split = .fault .stackOverflow a t.split) ∨
    (∃ a t, step s = .fault (.keyIndexOutOfRange a t) ∧
      storeBus.step s.split = .fault .keyIndexOutOfRange a t.split) := by
  have hm : (statePorts.step s).Matches (fun s p => s.split = p) (storeBus.step s.split) := portsRel_split.step rfl
  rw [step_eq_engine]
  cases hs : statePorts.step s <;> cases hb : storeBus.step s.split <;> rw [hs, hb] at hm
  case next.next t p =>
    cases hm
    exact .inl ⟨t, rfl, rfl⟩
  case fault.fault reason a t reason' a' p =>
    obtain ⟨rfl, rfl, rfl⟩ := hm
    cases reason
    · exact .inr (.inl ⟨a, t, rfl, rfl⟩)
    · exact .inr (.inr ⟨a, t, rfl, rfl⟩)
  all_goals exact hm.elim

theorem State.split_eq_iff {s t : State} : s.split = t.split ↔ s = t := ⟨State.split_inj, congrArg State.split⟩

theorem step_next_iff_split (s t : State) : step s = .next t ↔ storeBus.step s.split = .next t.split := by
  obtain ⟨_, e, e'⟩ | ⟨_, _, e, e'⟩ | ⟨_, _, e, e'⟩ := step_cases_split s <;> simp [e, e', State.split_eq_iff]

theorem step_stackOverflow_iff_split (s : State) (a : Addr) (t : State) :
    step s = .fault (.stackOverflow a t) ↔ storeBus.step s.split = .fault .stackOverflow a t.split := by
  obtain ⟨_, e, e'⟩ | ⟨_, _, e, e'⟩ | ⟨_, _, e, e'⟩ := step_cases_split s <;> simp [e, e', State.split_eq_iff]

theorem step_keyIndexOutOfRange_iff_split (s : State) (a : Addr) (t : State) :
    step s = .fault (.keyIndexOutOfRange a t) ↔ storeBus.step s.split = .fault .keyIndexOutOfRange a t.split := by
  obtain ⟨_, e, e'⟩ | ⟨_, _, e, e'⟩ | ⟨_, _, e, e'⟩ := step_cases_split s <;> simp [e, e', State.split_eq_iff]

/-- Settles O60: the store's laws, and the simulation of State by its split, which is injective. -/
theorem stepIsTheBusStepOnTheModelsStore : Obligations.StepIsTheBusStepOnTheModelsStore :=
  ⟨storeBus_lawful, step_next_iff_split, step_stackOverflow_iff_split, step_keyIndexOutOfRange_iff_split⟩

/-! ## A step does not depend on the store behind the contract (R61) -/

section
variable {σ τ : Type} {B : Bus σ} {C : Bus τ} {okB : σ → Prop} {okC : τ → Prop} {s : Sys σ} {t : Sys τ}

/-- Equal CPUs beside stores that answer alike, each store among those its bus is lawful on. -/
def AlikeOn (B : Bus σ) (C : Bus τ) (okB : σ → Prop) (okC : τ → Prop) (s : Sys σ) (t : Sys τ) : Prop :=
  okB s.store ∧ okC t.store ∧ Alike B C s t

theorem AlikeOn.cpu (h : AlikeOn B C okB okC s t) : s.cpu = t.cpu := h.2.2.cpu

theorem AlikeOn.answers (h : AlikeOn B C okB okC s t) : B.answers s.store = C.answers t.store := h.2.2.answers

/-- The same change of both CPUs. -/
theorem AlikeOn.mapCpu (h : AlikeOn B C okB okC s t) (f : Cpu → Cpu) :
    AlikeOn B C okB okC { s with cpu := f s.cpu } { t with cpu := f t.cpu } :=
  let ⟨hB, hC, hcpu, hans⟩ := h
  ⟨hB, hC, congrArg f hcpu, hans⟩

/-- New stores that again answer alike. -/
theorem AlikeOn.withStores (h : AlikeOn B C okB okC s t) {p : σ} {q : τ} (hp : okB p) (hq : okC q)
    (e : B.answers p = C.answers q) : AlikeOn B C okB okC { s with store := p } { t with store := q } :=
  let ⟨_, _, hcpu, _⟩ := h
  ⟨hp, hq, hcpu, e⟩

/-- Under lawful buses every read of the contract answers alike and every write keeps it so. -/
theorem Bus.Lawful.portsRel (lB : B.Lawful okB) (lC : C.Lawful okC) :
    PortsRel B.ports C.ports (AlikeOn B C okB okC) where
  reg h r := congrArg (fun c : Cpu => c.v[r]) h.cpu
  setReg h r w := h.mapCpu fun c => { c with v := c.v.set r w }
  pc h := congrArg Cpu.pc h.cpu
  setPc h a := h.mapCpu fun c => { c with pc := a }
  index h := congrArg Cpu.i h.cpu
  setIndex h a := h.mapCpu fun c => { c with i := a }
  stack h := congrArg Cpu.stack h.cpu
  setStack h l := h.mapCpu fun c => { c with stack := l }
  keyAwait h := congrArg Cpu.keyAwait h.cpu
  setKeyAwait h k := h.mapCpu fun c => { c with keyAwait := k }
  draws h := congrArg Cpu.draws h.cpu
  afterDraw h := h.mapCpu fun c => { c with draws := c.draws + 1 }
  params h := congrArg Cpu.params h.cpu
  memRead h a := congrFun (congrArg Answers.mem h.answers) a
  memWrite h a w := by
    have ⟨hs, ht, _, hans⟩ := h
    have hmem : B.memRead _ = C.memRead _ := congrArg Answers.mem hans
    refine h.withStores (lB.ok_memWrite _ a w hs) (lC.ok_memWrite _ a w ht) ?_
    rw [lB.answers_memWrite _ a w hs, lC.answers_memWrite _ a w ht, hans, hmem]
  keyRead h k := congrFun (congrArg Answers.key h.answers) k
  screenClear h := by
    have ⟨hs, ht, _, hans⟩ := h
    refine h.withStores (lB.ok_screenClear _ hs) (lC.ok_screenClear _ ht) ?_
    rw [lB.answers_screenClear _ hs, lC.answers_screenClear _ ht, hans]
  pixelRead h x y := congrFun (congrFun (congrArg Answers.pixel h.answers) x) y
  pixelWrite h x y b := by
    have ⟨hs, ht, _, hans⟩ := h
    have hpixel : B.pixelRead _ = C.pixelRead _ := congrArg Answers.pixel hans
    refine h.withStores (lB.ok_pixelWrite _ x y b hs) (lC.ok_pixelWrite _ x y b ht) ?_
    rw [lB.answers_pixelWrite _ x y b hs, lC.answers_pixelWrite _ x y b ht, hans, hpixel]
  delayRead h := congrArg Answers.delay h.answers
  delayWrite h w := by
    have ⟨hs, ht, _, hans⟩ := h
    refine h.withStores (lB.ok_delayWrite _ w hs) (lC.ok_delayWrite _ w ht) ?_
    rw [lB.answers_delayWrite _ w hs, lC.answers_delayWrite _ w ht, hans]
  soundWrite h w := by
    have ⟨hs, ht, _, hans⟩ := h
    refine h.withStores (lB.ok_soundWrite _ w hs) (lC.ok_soundWrite _ w ht) ?_
    rw [lB.answers_soundWrite _ w hs, lC.answers_soundWrite _ w ht, hans]

/-- Beside lawful stores that answer alike, equal CPUs step alike. -/
theorem Bus.Lawful.step_matches (lB : B.Lawful okB) (lC : C.Lawful okC) (h : AlikeOn B C okB okC s t) :
    (B.step s).Matches (AlikeOn B C okB okC) (C.step t) :=
  (lB.portsRel lC).step h

end

/-- Two states answer alike exactly when their CPUs are equal and their stores answer alike. -/
theorem sameAnswers_iff_alike {s t : State} : SameAnswers s t ↔ Alike storeBus storeBus s.split t.split := by
  constructor
  · intro h
    have hcpu : s.split.cpu = t.split.cpu := by
      simp only [State.split, State.v_eq_of_reg h.regs, h.pc, h.index, h.stack, h.keyAwait, h.draws, h.params]
    exact ⟨hcpu, Answers.ext (funext h.memory) (funext h.keys) (funext fun x => funext (h.video x)) h.delay⟩
  · rintro ⟨hcpu, hans⟩
    obtain ⟨hv, hpc, hi, hstack, hawait, hdraws, hparams⟩ := Cpu.mk.inj hcpu
    obtain ⟨hmem, hkey, hpixel, hdelay⟩ := Answers.mk.inj hans
    exact ⟨fun r => congrArg (fun v : Vector Byte 16 => v[r]) hv, hpc, hi, hstack, hawait, congrFun hmem,
      fun x => congrFun (congrFun hpixel x), congrFun hkey, hdelay, hdraws, hparams⟩

/-- The model's own case: states with canonical memories that answer alike step alike. -/
theorem step_next_of_sameAnswers {s s' t : State} (hs : s.mem.wf = true) (hs' : s'.mem.wf = true)
    (h : SameAnswers s s') (e : step s = .next t) : ∃ t', step s' = .next t' ∧ SameAnswers t t' := by
  have hm := storeBus_lawful.step_matches storeBus_lawful
    (s := s.split) (t := s'.split) ⟨hs, hs', sameAnswers_iff_alike.1 h⟩
  rw [(step_next_iff_split s t).1 e] at hm
  obtain ⟨t', e', eb⟩ | ⟨_, _, -, eb⟩ | ⟨_, _, -, eb⟩ := step_cases_split s' <;> rw [eb] at hm
  · exact ⟨t', e', sameAnswers_iff_alike.2 hm.2.2⟩
  all_goals exact hm.elim

/-- Settles O19: answering alike is a relation that two lawful buses' ports keep, so the engine's step keeps it; the
model's own states are the case of two of its own stores. -/
theorem stepDependsOnlyOnBusAnswers : Obligations.StepDependsOnlyOnBusAnswers :=
  ⟨fun _ _ _ _ _ _ lB lC _ _ hs ht h => lB.step_matches lC ⟨hs, ht, h⟩,
    fun _ _ _ hs hs' h e => step_next_of_sameAnswers hs hs' h e⟩

end Sys2Proof.Machine
end

section
/-! PROOFS. The engine family (40_engine.md): the key poll of a waiting step (R111) and the fetch (R112). -/

namespace Sys2Proof.Machine

/-! ## The key poll (R111) -/

/-- With no key pressed the poll has no key to store. -/
theorem State.keyPoll_of_none_pressed {s : State} (h : ∀ k, s.keyRead k = false) (r : RegIdx) : s.keyPoll r = s := by
  obtain ⟨-, e⟩ | ⟨k, hk, -, -⟩ := s.keyPoll_cases r
  · exact e
  · exact absurd (h k) (by simp [hk])

/-- The poll's outcomes name a pressed key with none lower pressed; there is only one such key. -/
theorem State.keyPoll_of_lowest_pressed {s : State} {k : KeyIdx} (hk : s.keyRead k = true)
    (hlow : ∀ j, j < k → s.keyRead j = false) (r : RegIdx) :
    s.keyPoll r = (s.setReg r (BitVec.ofNat 8 k)).setKeyAwait none := by
  obtain ⟨hnone, -⟩ | ⟨k', hk', hlow', e⟩ := s.keyPoll_cases r
  · exact absurd (hnone k) (by simp [hk])
  · have hle : k' ≤ k := not_lt.1 fun hlt => absurd (hlow' k hlt) (by simp [hk])
    have hge : k ≤ k' := not_lt.1 fun hlt => absurd (hlow k' hlt) (by simp [hk'])
    rw [e, le_antisymm hle hge]

/-- A key index is stored in a byte as itself. -/
theorem toNat_byte_keyIdx (k : KeyIdx) : (BitVec.ofNat 8 (k : Nat)).toNat = k := by
  rw [BitVec.toNat_ofNat]; omega

/-- Settles O8: a waiting step is the key poll, which with no key pressed is the state itself and else writes the lowest
pressed key and ends the wait. -/
theorem keyPollTakesLowestPressedKey : Obligations.KeyPollTakesLowestPressedKey := by
  intro s r hwait
  rw [step_waiting hwait]
  constructor
  · intro hnone
    rw [State.keyPoll_of_none_pressed hnone]
  · intro k hk hlow
    have hpoll := State.keyPoll_of_lowest_pressed hk hlow r
    refine ⟨s.keyPoll r, rfl, ?_, ?_, frame_keyPoll s r⟩
    · rw [hpoll, State.reg_setKeyAwait, State.reg_setReg_same, toNat_byte_keyIdx]
    · rw [hpoll, State.keyAwait_setKeyAwait]

/-! ## The fetch (R112) -/

/-- The byte after PC, its address counted in numbers (R56). -/
theorem State.pc_add_one (s : State) : s.pc + 1#12 = BitVec.ofNat 12 (s.pc.toNat + 1) := by
  rw [BitVec.ofNat_add, BitVec.ofNat_toNat, BitVec.setWidth_eq]

theorem State.toNat_pc_afterFetch (s : State) : s.afterFetch.pc.toNat = (s.pc.toNat + 2) % 0x1000 := by
  rw [State.afterFetch_eq, State.pc_setPc, BitVec.toNat_add]; rfl

/-- Settles O5: the word is its two bytes high first, and the fetch writes PC alone. -/
theorem fetchIsBigEndianAndWraps : Obligations.FetchIsBigEndianAndWraps := by
  intro s
  refine ⟨?_, s.toNat_pc_afterFetch, ?_⟩
  · rw [State.fetchWord_eq, toNat_opcodeOfBytes, State.pc_add_one]
  · rw [State.afterFetch_eq]
    exact frame_setPc s _

end Sys2Proof.Machine
end

section
/-! PROOFS. The control-transfer family (41_control.md): RET (R131), SYS (R132), JP (R133) and the skips on an immediate
compare (R130, R135, R136). -/

namespace Sys2Proof

/-- A word 0NNN is told by its address. -/
theorem mkNNN_ne_of_fieldNNN_ne {n0 : Nibble} {nnn : Addr} {w : Opcode} (h : nnn ≠ fieldNNN w) : mkNNN n0 nnn ≠ w :=
  fun e => h (by rw [← e, fieldNNN_mkNNN])

/-- R132, R84: every word 0NNN but those of CLS and RET is SYS. -/
theorem decode_sysWord {nnn : Addr} (hcls : nnn ≠ 0x0E0#12) (hret : nnn ≠ 0x0EE#12) :
    decode (mkNNN 0x0#4 nnn) = .ok (.sys nnn) := by
  have hne0 : mkNNN 0x0#4 nnn ≠ 0x00E0#16 := mkNNN_ne_of_fieldNNN_ne hcls
  have hnee : mkNNN 0x0#4 nnn ≠ 0x00EE#16 := mkNNN_ne_of_fieldNNN_ne hret
  rw [decode_n0_0 (fieldN0_mkNNN _ _) hne0 hnee, fieldNNN_mkNNN]

theorem decode_jpWord (nnn : Addr) : decode (mkNNN 0x1#4 nnn) = .ok (.jp nnn) := by
  rw [decode_n0_1 (fieldN0_mkNNN _ _), fieldNNN_mkNNN]

theorem decode_seImmWord (x : RegIdx) (nn : Byte) : decode (mkXNN 0x3#4 x nn) = .ok (.seImm x nn) := by
  rw [decode_n0_3 (fieldN0_mkXNN _ _ _), fieldX_mkXNN, fieldNN_mkXNN]

theorem decode_sneImmWord (x : RegIdx) (nn : Byte) : decode (mkXNN 0x4#4 x nn) = .ok (.sneImm x nn) := by
  rw [decode_n0_4 (fieldN0_mkXNN _ _ _), fieldX_mkXNN, fieldNN_mkXNN]

end Sys2Proof

namespace Sys2Proof.Machine

/-! ## RET, SYS and JP (R131 to R133) -/

/-- Settles O20: RET's two outcomes, one for each form of the stack. -/
theorem retPopsOrDoesNothing : Obligations.RetPopsOrDoesNothing := by
  refine ⟨rfl, fun s => ?_⟩
  obtain ⟨hempty, e⟩ | ⟨a, rest, hstack, e⟩ := execRet_cases s
  · exact ⟨fun _ => e, fun a rest h => absurd (hempty.symm.trans h) (List.cons_ne_nil a rest).symm⟩
  · refine ⟨fun h => absurd (hstack.symm.trans h) (List.cons_ne_nil a rest), fun a' rest' h => ?_⟩
    obtain ⟨rfl, rfl⟩ : a = a' ∧ rest = rest' := List.cons.inj (hstack.symm.trans h)
    exact ⟨_, e, State.pc_setPc _ a, State.stack_setPc _ a, exec_frame (i := .ret) e⟩

/-- Settles O21: SYS decodes off the two fixed words, and its meaning is the state it is given. -/
theorem sysIsNoOp : Obligations.SysIsNoOp :=
  fun nnn s => ⟨decode_sysWord, exec_sys s nnn⟩

/-- Settles O22: JP is the one write of PC. -/
theorem jpSetsPc : Obligations.JpSetsPc :=
  fun nnn s => ⟨decode_jpWord nnn, s.setPc nnn, exec_jp s nnn, s.pc_setPc nnn, frame_setPc s nnn⟩

/-! ## Skips on an immediate compare (R130, R135, R136) -/

/-- A skip's PC as a number: 2 further exactly when it is taken, mod 0x1000 (R130). -/
theorem State.toNat_pc_skipIf (s : State) (c : Bool) :
    (s.skipIf c).pc.toNat = (s.pc.toNat + if c = true then 2 else 0) % 0x1000 := by
  rw [State.skipIf_eq, State.pc_setPc]
  cases c with
  | true => exact BitVec.toNat_add s.pc 2#12
  | false => exact (Nat.mod_eq_of_lt s.pc.isLt).symm

/-- A skip on equal bytes. -/
theorem State.toNat_pc_skipIf_eq (s : State) (a b : Byte) :
    (s.skipIf (a == b)).pc.toNat = (s.pc.toNat + if a.toNat = b.toNat then 2 else 0) % 0x1000 := by
  simp only [State.toNat_pc_skipIf, beq_iff_eq, BitVec.toNat_inj]

/-- A skip on unequal bytes. -/
theorem State.toNat_pc_skipIf_ne (s : State) (a b : Byte) :
    (s.skipIf (a != b)).pc.toNat = (s.pc.toNat + if a.toNat = b.toNat then 0 else 2) % 0x1000 := by
  simp only [State.toNat_pc_skipIf, bne_iff_ne, BitVec.toNat_inj, ite_not]

/-- Settles O24: both are skips, SE's on equal bytes and SNE's on unequal ones. -/
theorem skipOnImmediateCompare : Obligations.SkipOnImmediateCompare :=
  fun x nn s => ⟨decode_seImmWord x nn, decode_sneImmWord x nn,
    ⟨_, exec_seImm s x nn, frame_skipIf s _, s.toNat_pc_skipIf_eq (s.reg x) nn⟩,
    ⟨_, exec_sneImm s x nn, frame_skipIf s _, s.toNat_pc_skipIf_ne (s.reg x) nn⟩⟩

end Sys2Proof.Machine
end

section
/-! PROOFS. The arithmetic family (42_alu.md): the loads of a register (R160, R162), the additions (R161, R166) and the
subtractions (R167, R169). -/

namespace Sys2Proof

theorem decode_ldImmWord (x : RegIdx) (nn : Byte) : decode (mkXNN 0x6#4 x nn) = .ok (.ldImm x nn) := by
  rw [decode_n0_6 (fieldN0_mkXNN _ _ _), fieldX_mkXNN, fieldNN_mkXNN]

theorem decode_addImmWord (x : RegIdx) (nn : Byte) : decode (mkXNN 0x7#4 x nn) = .ok (.addImm x nn) := by
  rw [decode_n0_7 (fieldN0_mkXNN _ _ _), fieldX_mkXNN, fieldNN_mkXNN]

/-- A word 8XYN is told by its low nibble (R83, rows 12 to 20). -/
theorem decode_word8 (x y : RegIdx) (n : Nibble) : decode (mkXYN 0x8#4 x y n) = decode8 x y n := by
  rw [decode_n0_8 (fieldN0_mkXYN _ _ _ _), fieldX_mkXYN, fieldY_mkXYN, fieldN_mkXYN]

end Sys2Proof

namespace Sys2Proof.Machine

/-! ## Writes without a flag (R160 to R162) -/

/-- Settles O27: LD Vx, nn is the one write of V[X]. -/
theorem ldImmWritesImmediate : Obligations.LdImmWritesImmediate :=
  fun x nn s => ⟨decode_ldImmWord x nn, s.setReg x nn, exec_ldImm s x nn, s.reg_setReg_same x nn, frame_setReg s x nn⟩

/-- Settles O28: ADD Vx, nn is the one write of V[X], so VF is in its frame; a byte sum is the sum mod 256. -/
theorem addImmWrapsWithoutFlag : Obligations.AddImmWrapsWithoutFlag := by
  intro x nn s
  refine ⟨decode_addImmWord x nn, s.setReg x (s.reg x + nn), exec_addImm s x nn, ?_, frame_setReg s x _⟩
  rw [State.reg_setReg_same, BitVec.toNat_add]

/-- Settles O29: LD Vx, Vy is the one write of V[X], by the value V[Y] had. -/
theorem ldRegCopiesRegister : Obligations.LdRegCopiesRegister :=
  fun x y s => ⟨decode_word8 x y 0x0#4, s.setReg x (s.reg y), exec_ldReg s x y, s.reg_setReg_same x _,
    frame_setReg s x _⟩

/-! ## Writes with a flag (R21, R30): the flag is written last -/

theorem State.reg_setRegFlag_flag (s : State) (x : RegIdx) (w f : Byte) : (s.setRegFlag x w f).reg VF = f := by
  rw [State.reg_setRegFlag, if_pos rfl]

theorem State.reg_setRegFlag_dest (s : State) {x : RegIdx} (hx : x ≠ VF) (w f : Byte) :
    (s.setRegFlag x w f).reg x = w := by
  rw [State.reg_setRegFlag, if_neg hx, if_pos rfl]

/-- Settles O31: the sum goes to V[X] and the carry of the old values to VF, in this order. -/
theorem addRegSetsCarryLast : Obligations.AddRegSetsCarryLast := by
  intro x y s
  refine ⟨decode_word8 x y 0x4#4, _, exec_addReg s x y, frame_setRegFlag s x _ _, fun hx => ?_, ?_⟩
  · rw [State.reg_setRegFlag_dest s hx, BitVec.toNat_add]
  · rw [State.reg_setRegFlag_flag, toNat_carryFlag]

/-- A byte difference as a number; adding 256 first keeps it from going below 0. -/
theorem toNat_byte_sub (a b : Byte) : (a - b).toNat = (a.toNat + 256 - b.toNat) % 256 := by
  have hb := b.isLt
  rw [BitVec.toNat_sub]
  congr 1
  omega

/-- What a subtraction a - b leaves in V[X] and VF, whichever operand is V[X]. -/
theorem State.setRegFlag_sub (s : State) (x : RegIdx) (a b : Byte) :
    Frame [] [x, VF] s (s.setRegFlag x (a - b) (notBorrowFlag a b)) ∧
    (x ≠ VF → ((s.setRegFlag x (a - b) (notBorrowFlag a b)).reg x).toNat = (a.toNat + 256 - b.toNat) % 256) ∧
    ((s.setRegFlag x (a - b) (notBorrowFlag a b)).reg VF).toNat = if a.toNat < b.toNat then 0 else 1 := by
  refine ⟨frame_setRegFlag s x _ _, fun hx => ?_, ?_⟩
  · rw [State.reg_setRegFlag_dest s hx, toNat_byte_sub]
  · rw [State.reg_setRegFlag_flag, toNat_notBorrowFlag]

/-- Settles O32: SUB and SUBN are one subtraction with its operands exchanged. -/
theorem subtractionsSetNotBorrowLast : Obligations.SubtractionsSetNotBorrowLast :=
  fun x y s => ⟨decode_word8 x y 0x5#4, decode_word8 x y 0x7#4,
    ⟨_, exec_subReg s x y, s.setRegFlag_sub x (s.reg x) (s.reg y)⟩,
    ⟨_, exec_subn s x y, s.setRegFlag_sub x (s.reg y) (s.reg x)⟩⟩

end Sys2Proof.Machine
end

section
/-! PROOFS. The index and memory family (43_index_memory.md): the two loads of I (R201, R203). -/

namespace Sys2Proof

theorem decode_ldIWord (nnn : Addr) : decode (mkNNN 0xA#4 nnn) = .ok (.ldI nnn) := by
  rw [decode_n0_A (fieldN0_mkNNN _ _), fieldNNN_mkNNN]

/-- A word FXNN is told by its low byte (R83, rows 27 to 35). -/
theorem decode_wordF (x : RegIdx) (nn : Byte) : decode (mkXNN 0xF#4 x nn) = decodeF x nn := by
  rw [decode_n0_F (fieldN0_mkXNN _ _ _), fieldX_mkXNN, fieldNN_mkXNN]

end Sys2Proof

namespace Sys2Proof.Machine

/-- Settles O36: LD I, nnn is the one write of I. -/
theorem ldISetsIndex : Obligations.LdISetsIndex :=
  fun nnn s => ⟨decode_ldIWord nnn, s.setI nnn, exec_ldI s nnn, s.i_setI nnn, frame_setI s nnn⟩

/-- Settles O38: LD F, Vx is the one write of I, by an address that five times a byte never leaves (5 · 255 < 0x1000). -/
theorem ldFPointsAtGlyph : Obligations.LdFPointsAtGlyph := by
  intro x s
  refine ⟨decode_wordF x 0x29#8, s.setI (glyphAddr (s.reg x)), exec_ldF s x, ?_, frame_setI s _⟩
  rw [State.i_setI, toNat_glyphAddr]

end Sys2Proof.Machine
end

section
/-! PROOFS. The display family (44_display.md): CLS (R231). -/

namespace Sys2Proof.Machine

/-- Settles O44: CLS is the one write of the frame buffer, after which no coordinate reads a set pixel. -/
theorem clsClearsEveryPixel : Obligations.ClsClearsEveryPixel :=
  ⟨rfl, fun s => ⟨s.screenClear, exec_cls s, s.pixelRead_screenClear, frame_screenClear s⟩⟩

end Sys2Proof.Machine
end

section
/-! PROOFS. The keypad and timer family (45_keypad_timers.md): LD Vx, DT (R253), LD Vx, K (R254), LD DT, Vx (R255) and
LD ST, Vx (R256). -/

namespace Sys2Proof.Machine

/-- Settles O49: LD Vx, DT is the one write of V[X], by the delay counter. -/
theorem ldVxDtReadsDelayCounter : Obligations.LdVxDtReadsDelayCounter :=
  fun x s => ⟨decode_wordF x 0x07#8, s.setReg x s.dt, exec_ldVxDt s x, s.reg_setReg_same x s.dt, frame_setReg s x s.dt⟩

/-- Settles O50: LD Vx, K is the one write of KEY_AWAIT, in every state, so whatever the keys are. -/
theorem ldVxKEntersKeyWait : Obligations.LdVxKEntersKeyWait :=
  fun x s => ⟨decode_wordF x 0x0A#8, s.setKeyAwait (some x), exec_ldVxK s x, s.keyAwait_setKeyAwait (some x),
    frame_setKeyAwait s (some x)⟩

/-- The beep predicate (R289) as a fact about the sound counter's number. -/
theorem State.beeping_iff (s : State) : s.beeping = true ↔ s.st.toNat ≠ 0 := by
  rw [State.beeping, bne_iff_ne]
  exact not_congr BitVec.toNat_inj.symm

/-- Settles O51: each load is the one write of its counter; the beep predicate reads the sound counter written. -/
theorem timerLoadsWriteTheirCounter : Obligations.TimerLoadsWriteTheirCounter := by
  intro x s
  refine ⟨decode_wordF x 0x15#8, decode_wordF x 0x18#8, ?delay, ?sound⟩
  case delay => exact ⟨s.delayWrite (s.reg x), exec_ldDtVx s x, s.dt_delayWrite _, frame_delayWrite s _⟩
  case sound =>
    refine ⟨s.soundWrite (s.reg x), exec_ldStVx s x, s.st_soundWrite _, ?_, frame_soundWrite s _⟩
    rw [State.beeping_iff, State.st_soundWrite]

end Sys2Proof.Machine
end

section
/-! PROOFS. The exceptions family (60_exceptions.md): the ticks of the two timers (R287 to R290) and the host's keys
(R293, R296). -/

namespace Sys2Proof.Machine

/-! ## A run of ticks -/

/-- What the two timers share (R287, R288): a tick writes the counter's value less one, and 0 stays 0; the counter is one
field of the state, of which the last write counts. -/
structure CountsDown (tick : HostOp) (read : State → Byte) (write : State → Byte → State) : Prop where
  applyOp_tick (s : State) : applyOp tick s = .next (write s (BitVec.ofNat 8 ((read s).toNat - 1)))
  read_write (s : State) (w : Byte) : read (write s w) = w
  write_write (s : State) (w w' : Byte) : write (write s w) w' = write s w'
  write_read (s : State) : write s (read s) = s

theorem countsDown_delay : CountsDown .delayTick State.dt State.delayWrite where
  applyOp_tick s := by rw [applyOp_delayTick, State.delayTick_eq]
  read_write := State.dt_delayWrite
  write_write _ _ _ := rfl
  write_read _ := rfl

theorem countsDown_sound : CountsDown .soundTick State.st State.soundWrite where
  applyOp_tick s := by rw [applyOp_soundTick, State.soundTick_eq]
  read_write := State.st_soundWrite
  write_write _ _ _ := rfl
  write_read _ := rfl

/-- A run that begins with an operation that answers a next state is the rest's run from there. -/
theorem runOps_cons_next {o : HostOp} {s t : State} (h : applyOp o s = .next t) (rest : List HostOp) :
    runOps (o :: rest) s = runOps rest t := by
  rw [runOps, h]

/-- A byte less any number, stopping at 0, is a byte. -/
theorem toNat_ofNat_toNat_sub (b : Byte) (n : Nat) : (BitVec.ofNat 8 (b.toNat - n)).toNat = b.toNat - n := by
  rw [BitVec.toNat_ofNat, Nat.mod_eq_of_lt (Nat.sub_lt_of_lt b.isLt)]

section
variable {tick : HostOp} {read : State → Byte} {write : State → Byte → State}

/-- n ticks are one write, by the counter's value less n: each further tick takes one more off what is left. -/
theorem CountsDown.runOps_replicate (h : CountsDown tick read write) (n : Nat) (s : State) :
    runOps (List.replicate n tick) s = .next (write s (BitVec.ofNat 8 ((read s).toNat - n))) := by
  induction n generalizing s with
  | zero => rw [Nat.sub_zero, BitVec.ofNat_toNat, BitVec.setWidth_eq, h.write_read]; rfl
  | succ n ih =>
    rw [List.replicate_succ, runOps_cons_next (h.applyOp_tick s), ih, h.write_write, h.read_write, toNat_ofNat_toNat_sub,
      Nat.sub_sub, Nat.add_comm 1 n]

/-- What n ticks answer, read off the state they answer. -/
theorem CountsDown.after_ticks (h : CountsDown tick read write) (n : Nat) (s : State) :
    ∃ t, runOps (List.replicate n tick) s = .next t ∧ (read t).toNat = (read s).toNat - n ∧ t = write s (read t) := by
  refine ⟨_, h.runOps_replicate n s, ?_, ?_⟩
  · rw [h.read_write, toNat_ofNat_toNat_sub]
  · rw [h.read_write]

end

/-- Settles O53: both timers count down, by induction on the ticks; the beep predicate reads the sound counter left. -/
theorem ticksCountDownToZero : Obligations.TicksCountDownToZero := by
  intro n s
  refine ⟨countsDown_delay.after_ticks n s, ?sound⟩
  case sound =>
    obtain ⟨t, hrun, hst, hwrite⟩ := countsDown_sound.after_ticks n s
    refine ⟨t, hrun, hst, hwrite, ?_⟩
    rw [State.beeping_iff, hst, Nat.sub_ne_zero_iff_lt]

/-! ## The host's keys -/

/-- Settles O59: the operation is the one write of that key, and the keys are the one field it writes. -/
theorem setKeySetsThatKeyOnly : Obligations.SetKeySetsThatKeyOnly := by
  intro k down s
  refine ⟨s.setKey k down, applyOp_setKey s k down, ?same, ?others, rfl⟩
  case same => rw [State.keyRead_setKey, if_pos rfl]
  case others => intro j hj; rw [State.keyRead_setKey, if_neg hj]

end Sys2Proof.Machine
end

section
/-! PROOFS. The reset family (70_reset_and_hazards.md): the power-on CPU values (R332), and the CPU reset, which restores
them (R333) and keeps the peripheral store (R334). -/

namespace Sys2Proof.Machine

/-- The CPU reset writes all sixteen registers and the rest of the CPU state, and nothing else (R333, R334). -/
theorem frame_cpuReset (s : State) :
    Frame [.pc, .index, .stack, .keyAwait] (List.finRange 16) s s.cpuReset := by
  constructor
  case regs => intro r hr; exact absurd (List.mem_finRange r) hr
  case pc | index | stack | keyAwait => intro h; simp at h
  case memory | video | delay | sound | draws | keys | params => intros; rfl

/-- The power-on state is as the CPU reset leaves it: its CPU values are the reset's (R333 restores R332). -/
theorem State.cpuReset_reset : State.reset.cpuReset = State.reset := rfl

/-- Settles O55: the power-on state is its own CPU reset, so its values are those the CPU reset writes. -/
theorem powerOnCpuValues : Obligations.PowerOnCpuValues := by
  unfold Obligations.PowerOnCpuValues
  rw [← State.cpuReset_reset]
  exact ⟨State.reset.reg_cpuReset, State.reset.i_cpuReset, State.reset.pc_cpuReset, State.reset.stack_cpuReset,
    State.reset.keyAwait_cpuReset⟩

/-- Settles O56: the CPU reset's values, and its frame. -/
theorem cpuResetKeepsPeripheralStore : Obligations.CpuResetKeepsPeripheralStore :=
  fun s => ⟨s.cpuReset, applyOp_cpuReset s, s.reg_cpuReset, s.i_cpuReset, s.pc_cpuReset, s.stack_cpuReset,
    s.keyAwait_cpuReset, frame_cpuReset s⟩

end Sys2Proof.Machine
end

section
/-! PROOFS. The encoding family (30_encoding.md): the decoder and the encoder undo each other (R80 to R85), and which words
are unmatched (R86). -/

namespace Sys2Proof

/-! ## The word of each pattern decodes to its instruction (R83) -/

theorem decode_callWord (nnn : Addr) : decode (mkNNN 0x2#4 nnn) = .ok (.call nnn) := by
  rw [decode_n0_2 (fieldN0_mkNNN _ _), fieldNNN_mkNNN]

theorem decode_jpV0Word (nnn : Addr) : decode (mkNNN 0xB#4 nnn) = .ok (.jpV0 nnn) := by
  rw [decode_n0_B (fieldN0_mkNNN _ _), fieldNNN_mkNNN]

theorem decode_rndWord (x : RegIdx) (nn : Byte) : decode (mkXNN 0xC#4 x nn) = .ok (.rnd x nn) := by
  rw [decode_n0_C (fieldN0_mkXNN _ _ _), fieldX_mkXNN, fieldNN_mkXNN]

theorem decode_drwWord (x y : RegIdx) (n : Nibble) : decode (mkXYN 0xD#4 x y n) = .ok (.drw x y n) := by
  rw [decode_n0_D (fieldN0_mkXYN _ _ _ _), fieldX_mkXYN, fieldY_mkXYN, fieldN_mkXYN]

/-- A word 5XYN is told by its low nibble. -/
theorem decode_word5 (x y : RegIdx) (n : Nibble) :
    decode (mkXYN 0x5#4 x y n) = if n = 0x0#4 then .ok (.seReg x y) else .error .word5xyn := by
  rw [decode_n0_5 (fieldN0_mkXYN _ _ _ _), fieldX_mkXYN, fieldY_mkXYN, fieldN_mkXYN]

/-- A word 9XYN is told by its low nibble. -/
theorem decode_word9 (x y : RegIdx) (n : Nibble) :
    decode (mkXYN 0x9#4 x y n) = if n = 0x0#4 then .ok (.sneReg x y) else .error .word9xyn := by
  rw [decode_n0_9 (fieldN0_mkXYN _ _ _ _), fieldX_mkXYN, fieldY_mkXYN, fieldN_mkXYN]

/-- A word EXNN is told by its low byte (R83, rows 25 and 26). -/
theorem decode_wordE (x : RegIdx) (nn : Byte) : decode (mkXNN 0xE#4 x nn) = decodeE x nn := by
  rw [decode_n0_E (fieldN0_mkXNN _ _ _), fieldX_mkXNN, fieldNN_mkXNN]

/-! ## Decoding undoes encoding -/

/-- Only SYS has a condition on its operand: at the addresses of CLS and RET its word is theirs (R84). -/
theorem decode_encode {i : Instr} (h : i.wellFormed = true) : decode (encode i) = .ok i := by
  cases i with
  | sys nnn =>
    obtain ⟨hcls, hret⟩ : nnn ≠ 0x0E0#12 ∧ nnn ≠ 0x0EE#12 := by simpa [Instr.wellFormed] using h
    exact decode_sysWord hcls hret
  | cls | ret => rfl
  | jp nnn => exact decode_jpWord nnn
  | call nnn => exact decode_callWord nnn
  | ldI nnn => exact decode_ldIWord nnn
  | jpV0 nnn => exact decode_jpV0Word nnn
  | seImm x nn => exact decode_seImmWord x nn
  | sneImm x nn => exact decode_sneImmWord x nn
  | ldImm x nn => exact decode_ldImmWord x nn
  | addImm x nn => exact decode_addImmWord x nn
  | rnd x nn => exact decode_rndWord x nn
  | drw x y n => exact decode_drwWord x y n
  | seReg x y => exact decode_word5 x y 0x0#4
  | sneReg x y => exact decode_word9 x y 0x0#4
  | ldReg x y | orReg x y | andReg x y | xorReg x y | addReg x y | subReg x y | shr x y | subn x y | shl x y =>
    exact decode_word8 x y _
  | skp x | sknp x => exact decode_wordE x _
  | ldVxDt x | ldVxK x | ldDtVx x | ldStVx x | addI x | ldF x | ldB x | ldMemVx x | ldVxMem x =>
    exact decode_wordF x _

/-- Settles O2: the word decodes by its pattern, and the word's two bytes are the word. -/
theorem decodeOfEncodeGivesInstruction : Obligations.DecodeOfEncodeGivesInstruction := by
  intro i h
  refine ⟨decode_encode h, ?_⟩
  rw [decodeBytes, opcodeOfBytes_hi_lo, decode_encode h]

/-! ## Encoding undoes decoding -/

/-- The instruction i is well formed and its word is w. -/
def Instr.IsWordOf (w : Opcode) (i : Instr) : Prop := encode i = w ∧ i.wellFormed = true

theorem mkNNN_of_fieldN0 {w : Opcode} {n0 : Nibble} (h : fieldN0 w = n0) : mkNNN n0 (fieldNNN w) = w := by
  rw [← h, mkNNN_of_fields]

theorem mkXNN_of_fieldN0 {w : Opcode} {n0 : Nibble} (h : fieldN0 w = n0) : mkXNN n0 (fieldX w) (fieldNN w) = w := by
  rw [← h, mkXNN_of_fields]

theorem mkXYN_of_fieldN0 {w : Opcode} {n0 : Nibble} (h : fieldN0 w = n0) :
    mkXYN n0 (fieldX w) (fieldY w) (fieldN w) = w := by
  rw [← h, mkXYN_of_fields]

/-- An instruction that 8XYN decodes to has the word with that low nibble. -/
theorem isWordOf_decode8 {x y : RegIdx} {n : Nibble} {i : Instr} (h : decode8 x y n = .ok i) :
    i.IsWordOf (mkXYN 0x8#4 x y n) := by
  unfold decode8 at h
  split_ifs at h <;> cases h <;> subst n <;> exact ⟨rfl, rfl⟩

/-- An instruction that EXNN decodes to has the word with that low byte. -/
theorem isWordOf_decodeE {x : RegIdx} {nn : Byte} {i : Instr} (h : decodeE x nn = .ok i) :
    i.IsWordOf (mkXNN 0xE#4 x nn) := by
  unfold decodeE at h
  split_ifs at h <;> cases h <;> subst nn <;> exact ⟨rfl, rfl⟩

/-- An instruction that FXNN decodes to has the word with that low byte. -/
theorem isWordOf_decodeF {x : RegIdx} {nn : Byte} {i : Instr} (h : decodeF x nn = .ok i) :
    i.IsWordOf (mkXNN 0xF#4 x nn) := by
  unfold decodeF at h
  split_ifs at h <;> cases h <;> subst nn <;> exact ⟨rfl, rfl⟩

/-- A word 0NNN that is not one of the two fixed words has an address that is neither of theirs. -/
theorem isWordOf_sys {w : Opcode} (h : fieldN0 w = 0x0#4) (hcls : w ≠ 0x00E0#16) (hret : w ≠ 0x00EE#16) :
    (Instr.sys (fieldNNN w)).IsWordOf w := by
  have hw := mkNNN_of_fieldN0 h
  have hcls' : fieldNNN w ≠ 0x0E0#12 := fun e => hcls (by rw [← hw, e]; rfl)
  have hret' : fieldNNN w ≠ 0x0EE#12 := fun e => hret (by rw [← hw, e]; rfl)
  exact ⟨hw, by simp [Instr.wellFormed, hcls', hret']⟩

/-- One case for each major opcode; the fields the decoder reads are those the encoder puts back. -/
theorem isWordOf_of_decode {w : Opcode} {i : Instr} (hd : decode w = .ok i) : i.IsWordOf w := by
  rcases nibble_cases (fieldN0 w) with
    h | h | h | h | h | h | h | h | h | h | h | h | h | h | h | h
  · by_cases hcls : w = 0x00E0#16
    · subst hcls; cases hd; exact ⟨rfl, rfl⟩
    by_cases hret : w = 0x00EE#16
    · subst hret; cases hd; exact ⟨rfl, rfl⟩
    rw [decode_n0_0 h hcls hret] at hd; cases hd
    exact isWordOf_sys h hcls hret
  · rw [decode_n0_1 h] at hd; cases hd; exact ⟨mkNNN_of_fieldN0 h, rfl⟩
  · rw [decode_n0_2 h] at hd; cases hd; exact ⟨mkNNN_of_fieldN0 h, rfl⟩
  · rw [decode_n0_3 h] at hd; cases hd; exact ⟨mkXNN_of_fieldN0 h, rfl⟩
  · rw [decode_n0_4 h] at hd; cases hd; exact ⟨mkXNN_of_fieldN0 h, rfl⟩
  · rw [decode_n0_5 h] at hd
    split at hd <;> cases hd
    next hn => exact ⟨by rw [encode, ← hn, mkXYN_of_fieldN0 h], rfl⟩
  · rw [decode_n0_6 h] at hd; cases hd; exact ⟨mkXNN_of_fieldN0 h, rfl⟩
  · rw [decode_n0_7 h] at hd; cases hd; exact ⟨mkXNN_of_fieldN0 h, rfl⟩
  · rw [decode_n0_8 h] at hd; simpa only [mkXYN_of_fieldN0 h] using isWordOf_decode8 hd
  · rw [decode_n0_9 h] at hd
    split at hd <;> cases hd
    next hn => exact ⟨by rw [encode, ← hn, mkXYN_of_fieldN0 h], rfl⟩
  · rw [decode_n0_A h] at hd; cases hd; exact ⟨mkNNN_of_fieldN0 h, rfl⟩
  · rw [decode_n0_B h] at hd; cases hd; exact ⟨mkNNN_of_fieldN0 h, rfl⟩
  · rw [decode_n0_C h] at hd; cases hd; exact ⟨mkXNN_of_fieldN0 h, rfl⟩
  · rw [decode_n0_D h] at hd; cases hd; exact ⟨mkXYN_of_fieldN0 h, rfl⟩
  · rw [decode_n0_E h] at hd; simpa only [mkXNN_of_fieldN0 h] using isWordOf_decodeE hd
  · rw [decode_n0_F h] at hd; simpa only [mkXNN_of_fieldN0 h] using isWordOf_decodeF hd

/-- Settles O3: the decoder reads off the very fields the encoder writes, one case for each major opcode. -/
theorem encodeOfDecodeGivesWord : Obligations.EncodeOfDecodeGivesWord :=
  fun _ _ h => isWordOf_of_decode h

/-! ## The unmatched words (R86) -/

/-- Which words each unmatched space holds, by the top nibble, the low nibble and the low byte of the word. -/
def Unmatched.Holds (n0 n nn : Nat) : Unmatched → Prop
  | .word5xyn => n0 = 5 ∧ n ≠ 0
  | .word9xyn => n0 = 9 ∧ n ≠ 0
  | .word8xyn => n0 = 8 ∧ n ∈ [8, 9, 10, 11, 12, 13, 15]
  | .wordExnn => n0 = 14 ∧ nn ∉ [0x9E, 0xA1]
  | .wordFxnn => n0 = 15 ∧ nn ∉ [0x07, 0x0A, 0x15, 0x18, 0x1E, 0x29, 0x33, 0x55, 0x65]

/-- Five top nibbles have unmatched words. -/
theorem Unmatched.not_holds {e : Unmatched} {n0 n nn : Nat} (h : n0 ∉ [5, 8, 9, 14, 15]) : ¬e.Holds n0 n nn := by
  simp only [List.mem_cons, List.not_mem_nil, not_or] at h
  cases e <;> simp [Unmatched.Holds, h]

theorem decode8_eq_error {x y : RegIdx} {n : Nibble} {e : Unmatched} :
    decode8 x y n = .error e ↔ e = .word8xyn ∧ n.toNat ∈ [8, 9, 10, 11, 12, 13, 15] := by
  rcases nibble_cases n with
    rfl | rfl | rfl | rfl | rfl | rfl | rfl | rfl | rfl | rfl | rfl | rfl | rfl | rfl | rfl | rfl <;>
  simp [decode8, eq_comm]

theorem decodeE_eq_error {x : RegIdx} {nn : Byte} {e : Unmatched} :
    decodeE x nn = .error e ↔ e = .wordExnn ∧ nn.toNat ∉ [0x9E, 0xA1] := by
  unfold decodeE
  split_ifs <;> simp_all [← BitVec.toNat_inj, eq_comm]

theorem decodeF_eq_error {x : RegIdx} {nn : Byte} {e : Unmatched} :
    decodeF x nn = .error e ↔
      e = .wordFxnn ∧ nn.toNat ∉ [0x07, 0x0A, 0x15, 0x18, 0x1E, 0x29, 0x33, 0x55, 0x65] := by
  unfold decodeF
  split_ifs <;> simp_all [← BitVec.toNat_inj, eq_comm]

/-- A word with one instruction at low nibble 0 is unmatched at every other. -/
theorem ite_nibble_eq_error {n : Nibble} {i : Instr} {e e' : Unmatched} :
    (if n = 0x0#4 then Except.ok i else .error e') = .error e ↔ e = e' ∧ n.toNat ≠ 0 := by
  have hn : n = 0x0#4 ↔ n.toNat = 0 := BitVec.toNat_inj.symm
  by_cases h : n = 0x0#4 <;> simp [h, ← hn, eq_comm]

/-- Every word 0NNN decodes: to CLS, to RET or to SYS (R84). -/
theorem decode_ne_error_of_n0_0 {w : Opcode} (h : fieldN0 w = 0x0#4) (e : Unmatched) : decode w ≠ .error e := by
  by_cases hcls : w = 0x00E0#16
  · subst hcls; exact nofun
  by_cases hret : w = 0x00EE#16
  · subst hret; exact nofun
  rw [decode_n0_0 h hcls hret]; exact nofun

/-- One case for each major opcode: eleven leave no word unmatched, each other one has a space of its own. -/
theorem decode_eq_error {w : Opcode} {e : Unmatched} :
    decode w = .error e ↔ e.Holds (fieldN0 w).toNat (fieldN w).toNat (fieldNN w).toNat := by
  rcases nibble_cases (fieldN0 w) with
    h | h | h | h | h | h | h | h | h | h | h | h | h | h | h | h
  · exact iff_of_false (decode_ne_error_of_n0_0 h e) (Unmatched.not_holds (by simp [h]))
  · exact iff_of_false (by simp [decode_n0_1 h]) (Unmatched.not_holds (by simp [h]))
  · exact iff_of_false (by simp [decode_n0_2 h]) (Unmatched.not_holds (by simp [h]))
  · exact iff_of_false (by simp [decode_n0_3 h]) (Unmatched.not_holds (by simp [h]))
  · exact iff_of_false (by simp [decode_n0_4 h]) (Unmatched.not_holds (by simp [h]))
  · rw [decode_n0_5 h, ite_nibble_eq_error]
    cases e <;> simp [Unmatched.Holds, h]
  · exact iff_of_false (by simp [decode_n0_6 h]) (Unmatched.not_holds (by simp [h]))
  · exact iff_of_false (by simp [decode_n0_7 h]) (Unmatched.not_holds (by simp [h]))
  · rw [decode_n0_8 h, decode8_eq_error]
    cases e <;> simp [Unmatched.Holds, h]
  · rw [decode_n0_9 h, ite_nibble_eq_error]
    cases e <;> simp [Unmatched.Holds, h]
  · exact iff_of_false (by simp [decode_n0_A h]) (Unmatched.not_holds (by simp [h]))
  · exact iff_of_false (by simp [decode_n0_B h]) (Unmatched.not_holds (by simp [h]))
  · exact iff_of_false (by simp [decode_n0_C h]) (Unmatched.not_holds (by simp [h]))
  · exact iff_of_false (by simp [decode_n0_D h]) (Unmatched.not_holds (by simp [h]))
  · rw [decode_n0_E h, decodeE_eq_error]
    cases e <;> simp [Unmatched.Holds, h]
  · rw [decode_n0_F h, decodeF_eq_error]
    cases e <;> simp [Unmatched.Holds, h]

/-- Settles O4: the fields that tell an unmatched word are its quotient by 4096 and its remainders by 16 and 256. -/
theorem unmatchedWordsAreTheFiveSpaces : Obligations.UnmatchedWordsAreTheFiveSpaces := by
  intro w
  simp only [decode_eq_error, toNat_fieldN0, toNat_fieldN, toNat_fieldNN]
  exact ⟨Iff.rfl, Iff.rfl, Iff.rfl, Iff.rfl, Iff.rfl⟩

/-- Settles O1: twelve words are encodings of well-formed instructions, so they decode; the last is unmatched. -/
theorem specWordsDecodeAsWritten : Obligations.SpecWordsDecodeAsWritten :=
  ⟨decode_encode (i := .cls) rfl, decode_encode (i := .ret) rfl, decode_encode (i := .sys 0x123#12) rfl,
    decode_encode (i := .call 0x300#12) rfl, decode_encode (i := .seImm 3 0x42#8) rfl,
    decode_encode (i := .seReg 1 2) rfl, decode_encode (i := .addReg 15 1) rfl, decode_encode (i := .shl 0 1) rfl,
    decode_encode (i := .rnd 3 0x0F#8) rfl, decode_encode (i := .drw 1 2 5#4) rfl, decode_encode (i := .skp 2) rfl,
    decode_encode (i := .ldMemVx 2) rfl, decode_word5 1 2 0x1#4⟩

end Sys2Proof
end

section
/-! PROOFS. The step family (40_engine.md, 60_exceptions.md): what a step runs (R110, R86), when it is a model fault (R282)
and when never (R116), and PC after it (R25). -/

namespace Sys2Proof.Machine

/-! ## What a step runs (R110, R86) -/

/-- The two bytes at PC, decoded, are the fetched word, decoded. -/
theorem State.decode_fetchWord (s : State) :
    decode s.fetchWord = decodeBytes (s.memRead s.pc) (s.memRead (s.pc + 1#12)) := rfl

theorem step_instruction {s : State} {i : Instr} (hk : s.keyAwait = none) (hd : decode s.fetchWord = .ok i) :
    step s = exec i (s.setPc (s.pc + 2#12)) := by
  rw [step_fetching hk, execWord_ok hd]

theorem step_unmatched {s : State} {e : Unmatched} (hk : s.keyAwait = none) (hd : decode s.fetchWord = .error e) :
    step s = .next (s.setPc (s.pc + 2#12)) := by
  rw [step_fetching hk, execWord_error hd]

/-- Settles O6: the step fetches, decodes and executes. -/
theorem stepRunsTheDecodedInstruction : Obligations.StepRunsTheDecodedInstruction :=
  fun s _ hk hd => step_instruction hk (s.decode_fetchWord.trans hd)

/-- Settles O7: an unmatched word leaves the state as the fetch left it. -/
theorem unmatchedWordIsNoOp : Obligations.UnmatchedWordIsNoOp :=
  fun s _ hk hd => step_unmatched hk (s.decode_fetchWord.trans hd)

/-! ## Model faults (R116, R282) -/

/-- Room on the stack, at any capacity. -/
theorem State.stackFull_eq_false {s : State} :
    s.stackFull = false ↔ ∀ c, s.params.stackCapacity = some c → s.stack.length < c := by
  simp only [← Bool.not_eq_true, State.stackFull_iff, not_exists, not_and, not_le]

theorem State.stackFull_of_unbounded {s : State} (h : s.params.stackCapacity = none) : s.stackFull = false :=
  State.stackFull_eq_false.2 fun c hc => by cases h.symm.trans hc

theorem exec_next_of_faultFree {s : State} (h : FaultFree s.params) (i : Instr) : ∃ t, exec i s = .next t := by
  obtain ⟨hstack, hkey⟩ := h
  rcases exec_cases i s with hnext | ⟨_, -, hfull, -⟩ | ⟨_, -, -, hfault, -⟩
  · exact hnext
  · rw [State.stackFull_of_unbounded hstack] at hfull; cases hfull
  · exact absurd hfault hkey

theorem step_next_of_faultFree {s : State} (h : FaultFree s.params) : ∃ t, step s = .next t := by
  rcases step_forms s with ⟨r, -, e⟩ | ⟨i, -, -, e⟩ | ⟨_, -, -, e⟩
  · exact ⟨_, e⟩
  · exact e ▸ exec_next_of_faultFree (s := s.setPc (s.pc + 2#12)) h i
  · exact ⟨_, e⟩

/-- Settles O9: of the three forms of a step only an instruction can fault, and neither fault can be met. -/
theorem stepIsAlwaysEnabled : Obligations.StepIsAlwaysEnabled :=
  fun _ h => step_next_of_faultFree h

/-! Past index 15 a key test goes by the policy (R252). -/

section
variable {s : State} {k : Byte}

theorem State.keyTest_draw (hk : 15 < k.toNat) (hp : s.params.keyOorPolicy = .draw) :
    s.keyTest k = some (s.nextBit, s.afterDraw) := by
  rcases s.keyTest_cases k with ⟨hlt, -⟩ | h | h | h | h
  · exact absurd hlt (by omega)
  all_goals simp_all

theorem State.keyTest_mask (hk : 15 < k.toNat) (hp : s.params.keyOorPolicy = .mask) :
    s.keyTest k = some (s.keyRead ⟨k.toNat % 16, Nat.mod_lt _ (by decide)⟩, s) := by
  rcases s.keyTest_cases k with ⟨hlt, -⟩ | h | h | h | h
  · exact absurd hlt (by omega)
  all_goals simp_all

theorem State.keyTest_notPressed (hk : 15 < k.toNat) (hp : s.params.keyOorPolicy = .notPressed) :
    s.keyTest k = some (false, s) := by
  rcases s.keyTest_cases k with ⟨hlt, -⟩ | h | h | h | h
  · exact absurd hlt (by omega)
  all_goals simp_all

theorem State.keyTest_fault (hk : 15 < k.toNat) (hp : s.params.keyOorPolicy = .fault) :
    s.keyTest k = none := by
  rcases s.keyTest_cases k with ⟨hlt, -⟩ | h | h | h | h
  · exact absurd hlt (by omega)
  all_goals simp_all

end

theorem exec_skp_of_keyTest_none {x : RegIdx} {s : State} (h : s.keyTest (s.reg x) = none) :
    exec (.skp x) s = .fault (.keyIndexOutOfRange (s.pc - 2#12) s) :=
  (execSkp_eq x s).trans (by rw [h])

theorem exec_sknp_of_keyTest_none {x : RegIdx} {s : State} (h : s.keyTest (s.reg x) = none) :
    exec (.sknp x) s = .fault (.keyIndexOutOfRange (s.pc - 2#12) s) :=
  (execSknp_eq x s).trans (by rw [h])

theorem exec_call_of_stackFull {s : State} (h : s.stackFull = true) (nnn : Addr) :
    exec (.call nnn) s = .fault (.stackOverflow (s.pc - 2#12) s) := by
  rcases execCall_cases nnn s with ⟨-, e⟩ | ⟨hroom, -⟩
  · exact e
  · cases h.symm.trans hroom

theorem exec_call_of_room {s : State} (h : s.stackFull = false) (nnn : Addr) :
    exec (.call nnn) s = .next ((s.setStack (s.pc :: s.stack)).setPc nnn) := by
  rcases execCall_cases nnn s with ⟨hfull, -⟩ | ⟨-, e⟩
  · cases h.symm.trans hfull
  · exact e

/-- Exactly when an instruction is a model fault, which, at which address, and with what state left (R282). -/
theorem exec_eq_fault {i : Instr} {s : State} {f : Fault} :
    exec i s = .fault f ↔
      (∃ nnn c, i = .call nnn ∧ s.params.stackCapacity = some c ∧ c ≤ s.stack.length ∧
        f = .stackOverflow (s.pc - 2#12) s) ∨
      (∃ x, (i = .skp x ∨ i = .sknp x) ∧ 15 < (s.reg x).toNat ∧ s.params.keyOorPolicy = .fault ∧
        f = .keyIndexOutOfRange (s.pc - 2#12) s) := by
  constructor
  · intro h
    rcases exec_cases i s with ⟨t, e⟩ | ⟨nnn, hi, hfull, e⟩ | ⟨x, hi, hx, hp, e⟩ <;> cases e.symm.trans h
    · obtain ⟨c, hc, hlen⟩ := State.stackFull_iff.1 hfull
      exact .inl ⟨nnn, c, hi, hc, hlen, rfl⟩
    · exact .inr ⟨x, hi, hx, hp, rfl⟩
  · rintro (⟨nnn, c, rfl, hc, hlen, rfl⟩ | ⟨x, rfl | rfl, hx, hp, rfl⟩)
    · exact exec_call_of_stackFull (State.stackFull_iff.2 ⟨c, hc, hlen⟩) nnn
    · exact exec_skp_of_keyTest_none (State.keyTest_fault hx hp)
    · exact exec_sknp_of_keyTest_none (State.keyTest_fault hx hp)

theorem exec_ne_refused (i : Instr) (s : State) (r : Refusal) : exec i s ≠ .refused r := by
  rcases exec_cases i s with ⟨t, e⟩ | ⟨_, -, -, e⟩ | ⟨_, -, -, -, e⟩ <;> rw [e] <;> exact nofun

theorem step_ne_refused (s : State) (r : Refusal) : step s ≠ .refused r := by
  rcases step_forms s with ⟨_, -, e⟩ | ⟨i, -, -, e⟩ | ⟨_, -, -, e⟩ <;> rw [e]
  · exact nofun
  · exact exec_ne_refused i _ r
  · exact nofun

/-- A step is a model fault exactly when it fetches an instruction that is one. -/
theorem step_eq_fault {s : State} {f : Fault} :
    step s = .fault f ↔
      s.keyAwait = none ∧ ∃ i, decode s.fetchWord = .ok i ∧ exec i (s.setPc (s.pc + 2#12)) = .fault f := by
  constructor
  · intro h
    rcases step_forms s with ⟨_, -, e⟩ | ⟨i, hk, hd, e⟩ | ⟨_, -, -, e⟩
    · cases e.symm.trans h
    · exact ⟨hk, i, hd, e.symm.trans h⟩
    · cases e.symm.trans h
  · rintro ⟨hk, i, hd, h⟩
    exact (step_instruction hk hd).trans h

/-- Settles O10: a step faults with its instruction, which runs with PC two past the fetch. -/
theorem modelFaultsAreExactlyTheTwo : Obligations.ModelFaultsAreExactlyTheTwo := by
  refine ⟨step_ne_refused, fun s f => step_eq_fault.trans (and_congr_right fun _ => ?_)⟩
  simp only [exec_eq_fault, State.pc_setPc, State.stack_setPc, State.params_setPc, State.reg_setPc, BitVec.add_sub_cancel]
  constructor
  · rintro ⟨i, hd, ⟨nnn, c, rfl, h⟩ | ⟨x, rfl | rfl, h⟩⟩
    · exact .inl ⟨nnn, c, hd, h⟩
    · exact .inr ⟨x, .inl hd, h⟩
    · exact .inr ⟨x, .inr hd, h⟩
  · rintro (⟨nnn, c, hd, h⟩ | ⟨x, hd | hd, h⟩)
    · exact ⟨_, hd, .inl ⟨nnn, c, rfl, h⟩⟩
    · exact ⟨_, hd, .inr ⟨x, .inl rfl, h⟩⟩
    · exact ⟨_, hd, .inr ⟨x, .inr rfl, h⟩⟩

/-! ## PC after a step (R25) -/

theorem State.pc_skipIf (s : State) (c : Bool) : (s.skipIf c).pc = if c then s.pc + 2#12 else s.pc := by
  rw [State.skipIf_eq, State.pc_setPc]

theorem State.pc_skipIf_not (s : State) (c : Bool) : (s.skipIf (!c)).pc = if c then s.pc else s.pc + 2#12 := by
  rw [State.pc_skipIf]; cases c <;> rfl

theorem State.pc_skipIf_eq (s : State) (a b : Byte) : (s.skipIf (a == b)).pc = if a = b then s.pc + 2#12 else s.pc := by
  simp only [State.pc_skipIf, beq_iff_eq]

theorem State.pc_skipIf_ne (s : State) (a b : Byte) : (s.skipIf (a != b)).pc = if a = b then s.pc else s.pc + 2#12 := by
  simp only [State.pc_skipIf, bne_iff_ne, ite_not]

/-- NNN + V[0] in 12 bits (D7). -/
theorem addr_add_setWidth (a : Addr) (w : Byte) : a + w.setWidth 12 = BitVec.ofNat 12 (a.toNat + w.toNat) := by
  rw [BitVec.ofNat_add, BitVec.ofNat_toNat, BitVec.setWidth_eq, BitVec.ofNat_toNat]

theorem exec_ret_nil {s : State} (h : s.stack = []) : exec .ret s = .next s := by
  rcases execRet_cases s with ⟨-, e⟩ | ⟨a, rest, h', -⟩
  · exact e
  · cases h.symm.trans h'

theorem exec_ret_cons {s : State} {a : Addr} {rest : List Addr} (h : s.stack = a :: rest) :
    exec .ret s = .next ((s.setStack rest).setPc a) := by
  rcases execRet_cases s with ⟨h', -⟩ | ⟨a', rest', h', e⟩
  · cases h.symm.trans h'
  · cases h.symm.trans h'; exact e

/-- The instructions that write PC set it as the table says; the others leave it where the fetch put it. -/
theorem exec_pc {i : Instr} {s t : State} (h : exec i (s.setPc (s.pc + 2#12)) = .next t) : t.pc = pcAfter i s := by
  cases i
  case ret =>
    cases hstack : s.stack with
    | nil =>
      cases (exec_ret_nil (s := s.setPc (s.pc + 2#12)) hstack).symm.trans h
      rw [pcAfter, hstack]; rfl
    | cons a rest =>
      cases (exec_ret_cons (s := s.setPc (s.pc + 2#12)) hstack).symm.trans h
      rw [pcAfter, hstack]; rfl
  case call nnn =>
    rcases execCall_cases nnn (s.setPc (s.pc + 2#12)) with ⟨-, e⟩ | ⟨-, e⟩ <;> cases e.symm.trans h
    rfl
  case jp nnn => cases h; rfl
  case jpV0 nnn => cases h; exact addr_add_setWidth nnn (s.reg 0)
  case seImm x nn => cases h; exact State.pc_skipIf_eq _ _ _
  case seReg x y => cases h; exact State.pc_skipIf_eq _ _ _
  case sneImm x nn => cases h; exact State.pc_skipIf_ne _ _ _
  case sneReg x y => cases h; exact State.pc_skipIf_ne _ _ _
  case skp x => obtain ⟨u, rfl | ⟨-, -, rfl⟩, rfl⟩ := execSkp_next h <;> exact State.pc_skipIf _ _
  case sknp x => obtain ⟨u, rfl | ⟨-, -, rfl⟩, rfl⟩ := execSknp_next h <;> exact State.pc_skipIf_not _ _
  all_goals exact (exec_frame h).pc (by simp [partsWritten])

/-- Settles O11: a key poll and an unmatched word by their frames, an instruction by the table. -/
theorem pcAfterStepFollowsTheTable : Obligations.PcAfterStepFollowsTheTable := by
  intro s t h
  refine ⟨fun r hk => ?_, fun hk i hd => ?_, fun hk e hd => ?_⟩
  · cases (step_waiting hk).symm.trans h
    exact (frame_keyPoll s r).pc (by simp)
  · exact exec_pc ((step_instruction hk hd).symm.trans h)
  · cases (step_unmatched hk hd).symm.trans h
    exact s.pc_setPc _

end Sys2Proof.Machine
end

section
/-! PROOFS. The invariant (canonical memory, stack within its capacity): construction has it (R330), every operation of the
host keeps it, so every reachable state has it (R343); and runs at parameters with no model fault (R344). -/

namespace Sys2Proof.Machine

/-! ## What keeps the invariant -/

theorem State.StackWithin.of_le {s t : State} (h : s.StackWithin) (hp : t.params = s.params)
    (hle : t.stack.length ≤ s.stack.length) : t.StackWithin :=
  fun c hc => hle.trans (h c (hp ▸ hc))

/-- A change that leaves memory as it is and the stack no longer than it was. -/
theorem CoreInv.of_mem_eq {s t : State} (h : CoreInv s) (hm : t.mem = s.mem) (hp : t.params = s.params)
    (hle : t.stack.length ≤ s.stack.length) : CoreInv t :=
  ⟨hm ▸ h.memCanonical, h.stackWithin.of_le hp hle⟩

/-! ## Instructions -/

theorem State.mem_skipIf (s : State) (c : Bool) : (s.skipIf c).mem = s.mem := by
  rw [State.skipIf_eq, State.mem_setPc]

theorem State.mem_loadRegs (s : State) (n : Nat) : (s.loadRegs n).mem = s.mem := by
  obtain ⟨v, hv⟩ := s.loadRegs_eq n
  rw [hv]

/-- An instruction that does not write memory keeps it as data, not only as read. -/
theorem exec_mem_eq {i : Instr} {s t : State} (h : exec i s = .next t) (hi : Part.memory ∉ partsWritten i) :
    t.mem = s.mem := by
  cases i
  case ldB | ldMemVx => simp [partsWritten] at hi
  case ret => rcases execRet_cases s with ⟨-, e⟩ | ⟨_, _, -, e⟩ <;> cases e.symm.trans h <;> rfl
  case call nnn => rcases execCall_cases nnn s with ⟨-, e⟩ | ⟨-, e⟩ <;> cases e.symm.trans h; rfl
  case skp x => obtain ⟨u, rfl | ⟨-, -, rfl⟩, rfl⟩ := execSkp_next h <;> exact State.mem_skipIf _ _
  case sknp x => obtain ⟨u, rfl | ⟨-, -, rfl⟩, rfl⟩ := execSknp_next h <;> exact State.mem_skipIf _ _
  case seImm | sneImm | seReg | sneReg => cases h; exact State.mem_skipIf _ _
  case drw x y n => cases h; exact (State.mem_keys_drawRows _ _ _ _).1
  case ldVxMem x => cases h; exact State.mem_loadRegs _ _
  all_goals cases h; rfl

/-- Memory stays canonical: the two instructions that write it do so byte by byte. -/
theorem exec_mem_wf {i : Instr} {s t : State} (h : exec i s = .next t) (hs : s.mem.wf = true) : t.mem.wf = true := by
  by_cases hi : Part.memory ∉ partsWritten i
  · rw [exec_mem_eq h hi, hs]
  · cases i <;> simp [partsWritten] at hi
    case ldB x => cases h; exact State.wf_memWrite (State.wf_memWrite (State.wf_memWrite hs _ _) _ _) _ _
    case ldMemVx x => cases h; exact State.wf_storeRegs hs _

/-- The stack stays within its capacity: CALL pushes only where there is room, RET pops. -/
theorem exec_stackWithin {i : Instr} {s t : State} (h : exec i s = .next t) (hs : s.StackWithin) : t.StackWithin := by
  have hp := (exec_frame h).params
  by_cases hi : Part.stack ∉ partsWritten i
  · exact hs.of_le hp (by rw [(exec_frame h).stack hi])
  · cases i <;> simp [partsWritten] at hi
    case ret =>
      rcases execRet_cases s with ⟨-, e⟩ | ⟨a, rest, hstack, e⟩ <;> cases e.symm.trans h
      · exact hs
      · exact hs.of_le hp (by simp [hstack])
    case call nnn =>
      rcases execCall_cases nnn s with ⟨-, e⟩ | ⟨hroom, e⟩ <;> cases e.symm.trans h
      exact fun c hc => State.stackFull_eq_false.1 hroom c hc

theorem exec_keeps_coreInv {i : Instr} {s t : State} (h : exec i s = .next t) (hs : CoreInv s) : CoreInv t :=
  ⟨exec_mem_wf h hs.memCanonical, exec_stackWithin h hs.stackWithin⟩

/-! ## Steps, operations and construction -/

theorem State.setPc_coreInv {s : State} (hs : CoreInv s) (a : Addr) : CoreInv (s.setPc a) :=
  hs.of_mem_eq rfl rfl le_rfl

theorem State.keyPoll_coreInv {s : State} (hs : CoreInv s) (r : RegIdx) : CoreInv (s.keyPoll r) := by
  rcases s.keyPoll_cases r with ⟨-, e⟩ | ⟨_, -, -, e⟩ <;> rw [e]
  · exact hs
  · exact hs.of_mem_eq rfl rfl le_rfl

theorem step_keeps_coreInv {s t : State} (hs : CoreInv s) (h : step s = .next t) : CoreInv t := by
  rcases step_forms s with ⟨r, -, e⟩ | ⟨i, -, -, e⟩ | ⟨_, -, -, e⟩
  · cases e.symm.trans h; exact State.keyPoll_coreInv hs r
  · exact exec_keeps_coreInv (e.symm.trans h) (State.setPc_coreInv hs _)
  · cases e.symm.trans h; exact State.setPc_coreInv hs _

theorem applyOp_keeps_coreInv {o : HostOp} {s t : State} (hs : CoreInv s) (h : applyOp o s = .next t) : CoreInv t := by
  cases o with
  | step => exact step_keeps_coreInv hs h
  | delayTick => cases h; rw [State.delayTick_eq]; exact hs.of_mem_eq rfl rfl le_rfl
  | soundTick => cases h; rw [State.soundTick_eq]; exact hs.of_mem_eq rfl rfl le_rfl
  | setKey k down => cases h; exact hs.of_mem_eq rfl rfl le_rfl
  | cpuReset => cases h; exact hs.of_mem_eq rfl rfl (Nat.zero_le _)

theorem construct_coreInv {p : Params} {f : Vector Byte 80} {m : Vector Byte 4096} {image : List Byte} {s : State}
    (h : State.construct p f m image = some s) : CoreInv s := by
  obtain ⟨hlen, rfl⟩ := State.construct_eq_some.1 h
  exact ⟨Memory.wf_construct f m hlen, fun _ _ => Nat.zero_le _⟩

/-- Settles O13: by the forms of a step, by the operations, and by the loads of a construction. -/
theorem stepAndEveryOperationKeepInvariant : Obligations.StepAndEveryOperationKeepInvariant :=
  ⟨fun _ _ => step_keeps_coreInv, fun _ _ _ => applyOp_keeps_coreInv, fun _ _ _ _ _ => construct_coreInv⟩

/-- Settles O12: State.reset has the empty memory and the empty stack. -/
theorem resetMeetsInvariant : Obligations.ResetMeetsInvariant :=
  ⟨Memory.wf_nil, fun _ _ => Nat.zero_le _⟩

/-- Settles O14: by induction on how the state is reached. -/
theorem reachableStatesMeetInvariant : Obligations.ReachableStatesMeetInvariant := by
  intro s hs
  induction hs with
  | construct _ _ _ _ h => exact construct_coreInv h
  | op _ _ h ih => exact applyOp_keeps_coreInv ih h

/-! ## Runs at parameters with no model fault -/

theorem step_keeps_params {s t : State} (h : step s = .next t) : t.params = s.params := by
  rcases step_forms s with ⟨r, -, e⟩ | ⟨i, -, -, e⟩ | ⟨_, -, -, e⟩
  · cases e.symm.trans h; exact (frame_keyPoll s r).params
  · exact (exec_frame (e.symm.trans h)).params
  · cases e.symm.trans h; rfl

theorem applyOp_keeps_params {o : HostOp} {s t : State} (h : applyOp o s = .next t) : t.params = s.params := by
  cases o with
  | step => exact step_keeps_params h
  | delayTick => cases h; exact (frame_delayTick s).params
  | soundTick => cases h; exact (frame_soundTick s).params
  | setKey k down => cases h; rfl
  | cpuReset => cases h; rfl

theorem applyOp_next_of_faultFree {s : State} (h : FaultFree s.params) (o : HostOp) : ∃ t, applyOp o s = .next t := by
  cases o with
  | step => exact step_next_of_faultFree h
  | delayTick | soundTick | setKey | cpuReset => exact ⟨_, rfl⟩

/-- Settles O15: by induction on the operations, each of which is enabled and keeps the parameters. -/
theorem runsNeverStopAtFaultFreeParameters : Obligations.RunsNeverStopAtFaultFreeParameters := by
  intro ops
  induction ops with
  | nil => exact fun s _ => ⟨s, rfl, rfl⟩
  | cons o rest ih =>
    intro s hs
    obtain ⟨t, ht⟩ := applyOp_next_of_faultFree hs o
    have hp := applyOp_keeps_params ht
    obtain ⟨u, hu, hpu⟩ := ih t (hp ▸ hs)
    exact ⟨u, (runOps_cons_next ht rest).trans hu, hpu.trans hp⟩

end Sys2Proof.Machine
end

section
/-! PROOFS. The writers of each part of the state (10_state.md, 60_exceptions.md R296): an operation's answer comes in one
of eight ways, each with its frame, so a part that changed was written by one of its writers. -/

namespace Sys2Proof.Machine

/-! ## All an operation can answer -/

/-- The ways an operation of the host answers a next state. -/
inductive OpAnswer (s : State) : HostOp → State → Prop where
  | instruction {i : Instr} {t : State} (hk : s.keyAwait = none) (hd : decode s.fetchWord = .ok i)
      (h : exec i (s.setPc (s.pc + 2#12)) = .next t) : OpAnswer s .step t
  | unmatched (hk : s.keyAwait = none) : OpAnswer s .step (s.setPc (s.pc + 2#12))
  | pollWithoutKey : OpAnswer s .step s
  | pollWithKey {r : RegIdx} {k : KeyIdx} (hk : s.keyAwait = some r) (hdown : s.keyRead k = true) :
      OpAnswer s .step ((s.setReg r (BitVec.ofNat 8 k)).setKeyAwait none)
  | delayTick : OpAnswer s .delayTick s.delayTick
  | soundTick : OpAnswer s .soundTick s.soundTick
  | setKey (k : KeyIdx) (down : Bool) : OpAnswer s (.setKey k down) (s.setKey k down)
  | cpuReset : OpAnswer s .cpuReset s.cpuReset

theorem step_answer {s t : State} (h : step s = .next t) : OpAnswer s .step t := by
  rcases step_forms s with ⟨r, hk, e⟩ | ⟨i, hk, hd, e⟩ | ⟨_, hk, -, e⟩
  · cases e.symm.trans h
    rcases s.keyPoll_cases r with ⟨-, e'⟩ | ⟨k, hdown, -, e'⟩ <;> rw [e']
    · exact .pollWithoutKey
    · exact .pollWithKey hk hdown
  · exact .instruction hk hd (e.symm.trans h)
  · cases e.symm.trans h
    exact .unmatched hk

theorem applyOp_answer {o : HostOp} {s t : State} (h : applyOp o s = .next t) : OpAnswer s o t := by
  cases o with
  | step => exact step_answer h
  | delayTick => cases h; exact .delayTick
  | soundTick => cases h; exact .soundTick
  | setKey k down => cases h; exact .setKey k down
  | cpuReset => cases h; exact .cpuReset

/-! ## Parts -/

/-- The part is the same in both states. -/
def Part.Kept (s t : State) : Part → Prop
  | .pc => t.pc = s.pc
  | .index => t.i = s.i
  | .stack => t.stack = s.stack
  | .keyAwait => t.keyAwait = s.keyAwait
  | .memory => ∀ a, t.memRead a = s.memRead a
  | .video => ∀ x y, t.pixelRead x y = s.pixelRead x y
  | .delay => t.dt = s.dt
  | .sound => t.st = s.st
  | .draws => t.draws = s.draws

theorem Frame.kept {parts : List Part} {written : List RegIdx} {s t : State} (h : Frame parts written s t) {p : Part}
    (hp : p ∉ parts) : p.Kept s t := by
  cases p with
  | pc => exact h.pc hp
  | index => exact h.index hp
  | stack => exact h.stack hp
  | keyAwait => exact h.keyAwait hp
  | memory => exact h.memory hp
  | video => exact h.video hp
  | delay => exact h.delay hp
  | sound => exact h.sound hp
  | draws => exact h.draws hp

theorem Part.kept_setKey (s : State) (k : KeyIdx) (down : Bool) (p : Part) : p.Kept s (s.setKey k down) := by
  cases p with
  | memory => exact fun _ => rfl
  | video => exact fun _ _ => rfl
  | pc | index | stack | keyAwait | delay | sound | draws => rfl

/-- The operation runs the instruction. -/
def Runs (o : HostOp) (s : State) (i : Instr) : Prop := o = .step ∧ s.keyAwait = none ∧ decode s.fetchWord = .ok i

/-- The operation can change the part in a way other than by an instruction's meaning: by the fetch, by the key poll, or as
an operation that is no step. -/
inductive OwnPart (s : State) : HostOp → Part → Prop where
  | fetch (hk : s.keyAwait = none) : OwnPart s .step .pc
  | keyPoll : OwnPart s .step .keyAwait
  | delayTick : OwnPart s .delayTick .delay
  | soundTick : OwnPart s .soundTick .sound
  | cpuReset {p : Part} (hp : p ∈ [.pc, .index, .stack, .keyAwait]) : OwnPart s .cpuReset p

/-- The frame of a whole step that runs an instruction: the fetch writes PC before the instruction runs. -/
theorem exec_frame_of_fetch {i : Instr} {s t : State} {a : Addr} (h : exec i (s.setPc a) = .next t) :
    Frame (.pc :: partsWritten i) (regsWritten i) s t :=
  ((frame_setPc s a).mono (by simp) (by simp)).trans ((exec_frame h).mono (by simp) (by simp))

theorem frame_endWait (s : State) (r : RegIdx) (w : Byte) :
    Frame [.keyAwait] [r] s ((s.setReg r w).setKeyAwait none) :=
  ((frame_setReg s r w).mono (by simp) (by simp)).trans ((frame_setKeyAwait _ none).mono (by simp) (by simp))

/-- A part that an operation changed is one of the operation's own, or its instruction writes it. -/
theorem OpAnswer.writer_of_part {o : HostOp} {s t : State} {p : Part} (h : OpAnswer s o t) (hp : ¬p.Kept s t) :
    OwnPart s o p ∨ ∃ i, Runs o s i ∧ p ∈ partsWritten i := by
  by_contra hno
  obtain ⟨hown, hinstr⟩ := not_or.1 hno
  refine hp ?_
  cases h with
  | @instruction i _ hk hd h =>
    have hpc : p ≠ .pc := fun e => hown (e ▸ .fetch hk)
    have hi : p ∉ partsWritten i := fun hm => hinstr ⟨i, ⟨rfl, hk, hd⟩, hm⟩
    exact (exec_frame_of_fetch h).kept (by simp [hpc, hi])
  | unmatched hk => exact (frame_setPc s _).kept fun hm => hown (List.mem_singleton.1 hm ▸ .fetch hk)
  | pollWithoutKey => exact (Frame.refl [] [] s).kept List.not_mem_nil
  | pollWithKey => exact (frame_endWait s _ _).kept fun hm => hown (List.mem_singleton.1 hm ▸ .keyPoll)
  | delayTick => exact (frame_delayTick s).kept fun hm => hown (List.mem_singleton.1 hm ▸ .delayTick)
  | soundTick => exact (frame_soundTick s).kept fun hm => hown (List.mem_singleton.1 hm ▸ .soundTick)
  | setKey k down => exact p.kept_setKey s k down
  | cpuReset => exact (frame_cpuReset s).kept fun hm => hown (.cpuReset hm)

/-- The parts that no operation has of its own are written by instructions alone. -/
theorem OpAnswer.instruction_of_part {o : HostOp} {s t : State} {p : Part} (h : OpAnswer s o t) (hp : ¬p.Kept s t)
    (hnot : p ∉ [Part.pc, .index, .stack, .keyAwait, .delay, .sound]) : ∃ i, Runs o s i ∧ p ∈ partsWritten i := by
  refine (h.writer_of_part hp).resolve_left fun hown => hnot ?_
  cases hown with
  | cpuReset hp => exact List.mem_append_left [.delay, .sound] hp
  | fetch | keyPoll | delayTick | soundTick => simp

/-! ### The instructions that write a part -/

theorem writesPart_video {i : Instr} (h : Part.video ∈ partsWritten i) : i = .cls ∨ ∃ a b n, i = .drw a b n := by
  cases i <;> simp [partsWritten] at h ⊢

theorem writesPart_delay {i : Instr} (h : Part.delay ∈ partsWritten i) : ∃ x, i = .ldDtVx x := by
  cases i <;> simp [partsWritten] at h ⊢

theorem writesPart_sound {i : Instr} (h : Part.sound ∈ partsWritten i) : ∃ x, i = .ldStVx x := by
  cases i <;> simp [partsWritten] at h ⊢

theorem writesPart_memory {i : Instr} (h : Part.memory ∈ partsWritten i) : ∃ x, i = .ldB x ∨ i = .ldMemVx x := by
  cases i <;> simp [partsWritten] at h ⊢

theorem writesPart_index {i : Instr} (h : Part.index ∈ partsWritten i) :
    ∃ n x, i = .ldI n ∨ i = .addI x ∨ i = .ldF x ∨ i = .ldMemVx x ∨ i = .ldVxMem x := by
  cases i <;> simp [partsWritten] at h ⊢

theorem writesPart_stack {i : Instr} (h : Part.stack ∈ partsWritten i) : i = .ret ∨ ∃ n, i = .call n := by
  cases i <;> simp [partsWritten] at h ⊢

theorem writesPart_keyAwait {i : Instr} (h : Part.keyAwait ∈ partsWritten i) : ∃ x, i = .ldVxK x := by
  cases i <;> simp [partsWritten] at h ⊢

theorem writesPart_draws {i : Instr} (h : Part.draws ∈ partsWritten i) :
    ∃ x, (∃ nn, i = .rnd x nn) ∨ i = .skp x ∨ i = .sknp x := by
  cases i <;> simp [partsWritten] at h ⊢

/-! ## The peripheral store (R32 to R36) -/

theorem OpAnswer.setKey_of_keyRead {o : HostOp} {s t : State} {k : KeyIdx} (h : OpAnswer s o t)
    (hne : t.keyRead k ≠ s.keyRead k) : ∃ down, o = .setKey k down := by
  cases h with
  | instruction _ _ h => exact absurd ((exec_frame_of_fetch h).keys k) hne
  | delayTick => exact absurd ((frame_delayTick s).keys k) hne
  | soundTick => exact absurd ((frame_soundTick s).keys k) hne
  | setKey j down =>
    by_cases hkj : k = j
    · exact ⟨down, by rw [hkj]⟩
    · exact absurd (by rw [State.keyRead_setKey, if_neg hkj]) hne
  | unmatched | pollWithoutKey | pollWithKey | cpuReset => exact absurd rfl hne

/-- Settles O17: a part that changed was written by the operation itself or by the instruction it ran. -/
theorem storeChangesOnlyByItsWriters : Obligations.StoreChangesOnlyByItsWriters := by
  intro o s t h runs
  have ha := applyOp_answer h
  refine ⟨?video, fun k hne => ha.setKey_of_keyRead hne, ?delay, ?sound, ?memory, applyOp_keeps_params h⟩
  case video =>
    intro x y hne
    obtain ⟨i, hr, hi⟩ := ha.instruction_of_part (p := .video) (fun hk => hne (hk x y)) (by simp)
    rcases writesPart_video hi with rfl | ⟨a, b, n, rfl⟩
    · exact .inl hr
    · exact .inr ⟨a, b, n, hr⟩
  case delay =>
    intro hne
    rcases ha.writer_of_part (p := .delay) hne with hown | ⟨i, hr, hi⟩
    · cases hown with
      | delayTick => exact .inl rfl
      | cpuReset hp => simp at hp
    · obtain ⟨x, rfl⟩ := writesPart_delay hi
      exact .inr ⟨x, hr⟩
  case sound =>
    intro hne
    rcases ha.writer_of_part (p := .sound) hne with hown | ⟨i, hr, hi⟩
    · cases hown with
      | soundTick => exact .inl rfl
      | cpuReset hp => simp at hp
    · obtain ⟨x, rfl⟩ := writesPart_sound hi
      exact .inr ⟨x, hr⟩
  case memory =>
    intro a hne
    obtain ⟨i, hr, hi⟩ := ha.instruction_of_part (p := .memory) (fun hk => hne (hk a)) (by simp)
    obtain ⟨x, rfl | rfl⟩ := writesPart_memory hi
    · exact ⟨x, .inl hr⟩
    · exact ⟨x, .inr hr⟩

/-! ## The CPU state (R20 to R29) -/

theorem OpAnswer.writer_of_reg {o : HostOp} {s t : State} {r : RegIdx} (h : OpAnswer s o t)
    (hne : t.reg r ≠ s.reg r) :
    o = .cpuReset ∨ (∃ i, Runs o s i ∧ r ∈ regsWritten i) ∨
      (o = .step ∧ s.keyAwait = some r ∧ ∃ k, s.keyRead k = true) := by
  cases h with
  | @instruction i _ hk hd h =>
    exact .inr (.inl ⟨i, ⟨rfl, hk, hd⟩, not_not.1 fun hr => hne ((exec_frame_of_fetch h).regs r hr)⟩)
  | @pollWithKey q k hk hdown =>
    have hrq : r = q := not_not.1 fun hr => hne ((frame_endWait s q _).regs r (by simpa using hr))
    exact .inr (.inr ⟨rfl, hrq ▸ hk, k, hdown⟩)
  | delayTick => exact absurd ((frame_delayTick s).regs r (by simp)) hne
  | soundTick => exact absurd ((frame_soundTick s).regs r (by simp)) hne
  | cpuReset => exact .inl rfl
  | unmatched | pollWithoutKey | setKey => exact absurd rfl hne

theorem OpAnswer.writer_of_keyAwait {o : HostOp} {s t : State} (h : OpAnswer s o t) (hne : t.keyAwait ≠ s.keyAwait) :
    o = .cpuReset ∨ (∃ x, Runs o s (.ldVxK x)) ∨
      (o = .step ∧ (∃ r, s.keyAwait = some r) ∧ (∃ k, s.keyRead k = true) ∧ t.keyAwait = none) := by
  cases h with
  | @instruction i _ hk hd h =>
    have hi : Part.keyAwait ∈ partsWritten i :=
      not_not.1 fun hi => hne ((exec_frame_of_fetch h).keyAwait (by simp [hi]))
    obtain ⟨x, rfl⟩ := writesPart_keyAwait hi
    exact .inr (.inl ⟨x, rfl, hk, hd⟩)
  | @pollWithKey r k hk hdown => exact .inr (.inr ⟨rfl, ⟨r, hk⟩, ⟨k, hdown⟩, rfl⟩)
  | delayTick => exact absurd ((frame_delayTick s).keyAwait (by simp)) hne
  | soundTick => exact absurd ((frame_soundTick s).keyAwait (by simp)) hne
  | cpuReset => exact .inl rfl
  | unmatched | pollWithoutKey | setKey => exact absurd rfl hne

theorem State.draws_skipIf (s : State) (c : Bool) : (s.skipIf c).draws = s.draws := by
  rw [State.skipIf_eq, State.draws_setPc]

/-- An instruction that moves the draw counter draws one free value. -/
theorem exec_draws {i : Instr} {s t : State} (h : exec i s = .next t) (hne : t.draws ≠ s.draws) :
    t.draws = s.draws + 1 ∧ ∃ x, (∃ nn, i = .rnd x nn) ∨
      ((i = .skp x ∨ i = .sknp x) ∧ 15 < (s.reg x).toNat ∧ s.params.keyOorPolicy = .draw) := by
  have hi : Part.draws ∈ partsWritten i := not_not.1 fun hi => hne ((exec_frame h).draws hi)
  obtain ⟨x, ⟨nn, rfl⟩ | rfl | rfl⟩ := writesPart_draws hi
  · cases h
    exact ⟨rfl, x, .inl ⟨nn, rfl⟩⟩
  · obtain ⟨u, rfl | ⟨hx, hp, rfl⟩, rfl⟩ := execSkp_next h
    · exact absurd (State.draws_skipIf _ _) hne
    · exact ⟨State.draws_skipIf _ _, x, .inr ⟨.inl rfl, hx, hp⟩⟩
  · obtain ⟨u, rfl | ⟨hx, hp, rfl⟩, rfl⟩ := execSknp_next h
    · exact absurd (State.draws_skipIf _ _) hne
    · exact ⟨State.draws_skipIf _ _, x, .inr ⟨.inr rfl, hx, hp⟩⟩

theorem OpAnswer.writer_of_draws {o : HostOp} {s t : State} (h : OpAnswer s o t) (hne : t.draws ≠ s.draws) :
    t.draws = s.draws + 1 ∧ ∃ x n, Runs o s (.rnd x n) ∨
      ((Runs o s (.skp x) ∨ Runs o s (.sknp x)) ∧ 15 < (s.reg x).toNat ∧ s.params.keyOorPolicy = .draw) := by
  cases h with
  | instruction hk hd h =>
    obtain ⟨hdraws, x, ⟨nn, rfl⟩ | ⟨rfl | rfl, hx⟩⟩ := exec_draws h hne
    · exact ⟨hdraws, x, nn, .inl ⟨rfl, hk, hd⟩⟩
    · exact ⟨hdraws, x, 0#8, .inr ⟨.inl ⟨rfl, hk, hd⟩, hx⟩⟩
    · exact ⟨hdraws, x, 0#8, .inr ⟨.inr ⟨rfl, hk, hd⟩, hx⟩⟩
  | delayTick => exact absurd ((frame_delayTick s).draws (by simp)) hne
  | soundTick => exact absurd ((frame_soundTick s).draws (by simp)) hne
  | unmatched | pollWithoutKey | pollWithKey | setKey | cpuReset => exact absurd rfl hne

/-- Settles O18: as O17, and for the registers, KEY_AWAIT and the draws by the way the operation answers. -/
theorem cpuStateChangesOnlyByItsWriters : Obligations.CpuStateChangesOnlyByItsWriters := by
  intro o s t h runs
  have ha := applyOp_answer h
  refine ⟨fun r hne => ha.writer_of_reg hne, ?pc, ?index, ?stack, fun hne => ha.writer_of_keyAwait hne,
    fun hne => ha.writer_of_draws hne⟩
  case pc =>
    intro hne
    rcases ha.writer_of_part (p := .pc) hne with hown | ⟨i, ⟨hstep, hk, -⟩, -⟩
    · cases hown with
      | fetch hk => exact .inr ⟨rfl, hk⟩
      | cpuReset => exact .inl rfl
    · exact .inr ⟨hstep, hk⟩
  case index =>
    intro hne
    rcases ha.writer_of_part (p := .index) hne with hown | ⟨i, hr, hi⟩
    · cases hown with
      | cpuReset => exact .inl rfl
    · obtain ⟨n, x, hi⟩ := writesPart_index hi
      refine .inr ⟨n, x, ?_⟩
      rcases hi with rfl | rfl | rfl | rfl | rfl
      · exact .inl hr
      · exact .inr (.inl hr)
      · exact .inr (.inr (.inl hr))
      · exact .inr (.inr (.inr (.inl hr)))
      · exact .inr (.inr (.inr (.inr hr)))
  case stack =>
    intro hne
    rcases ha.writer_of_part (p := .stack) hne with hown | ⟨i, hr, hi⟩
    · cases hown with
      | cpuReset => exact .inl rfl
    · rcases writesPart_stack hi with rfl | ⟨n, rfl⟩
      · exact .inr (.inl hr)
      · exact .inr (.inr ⟨n, hr⟩)

end Sys2Proof.Machine
end

section
/-! PROOFS. The register access table (10_state.md R22): an instruction run after a register it does not read was given
another value. -/

namespace Sys2Proof.Machine

/-- t' is t but for register r, which holds b in t' unless it is one of the registers written, which are as in t. -/
def DiffersOnlyAt (written : List RegIdx) (r : RegIdx) (b : Byte) (t t' : State) : Prop :=
  (r ∈ written → t' = t) ∧ (r ∉ written → t' = t.setReg r b)

section
variable (s : State) (r x : RegIdx) (b w f : Byte)

theorem differsOnlyAt_setReg_self : DiffersOnlyAt [] r b s (s.setReg r b) :=
  ⟨nofun, fun _ => rfl⟩

/-- A change that does not meet register r where it is not yet written. -/
theorem DiffersOnlyAt.map {written : List RegIdx} {r : RegIdx} {b : Byte} {s s' : State} (g : State → State)
    (hg : r ∉ written → g (s.setReg r b) = (g s).setReg r b) (h : DiffersOnlyAt written r b s s') :
    DiffersOnlyAt written r b (g s) (g s') :=
  ⟨fun hr => congrArg g (h.1 hr), fun hr => (congrArg g (h.2 hr)).trans (hg hr)⟩

/-- Once register x is written, both states agree there. -/
theorem DiffersOnlyAt.setReg {written : List RegIdx} {r : RegIdx} {b : Byte} {s s' : State}
    (h : DiffersOnlyAt written r b s s') (x : RegIdx) (w : Byte) :
    DiffersOnlyAt (written ++ [x]) r b (s.setReg x w) (s'.setReg x w) := by
  by_cases hr : r ∈ written
  · rw [h.1 hr]
    exact ⟨fun _ => rfl, fun hn => absurd (List.mem_append_left _ hr) hn⟩
  · rw [h.2 hr]
    constructor
    · intro hm
      obtain rfl : r = x := by simpa [hr] using hm
      rw [State.setReg_setReg]
    · intro hn
      have hrx : r ≠ x := fun e => hn (by simp [e])
      rw [State.setReg_comm _ hrx]

theorem differsOnlyAt_setReg : DiffersOnlyAt [x] r b (s.setReg x w) ((s.setReg r b).setReg x w) :=
  (differsOnlyAt_setReg_self s r b).setReg x w

theorem differsOnlyAt_setRegFlag :
    DiffersOnlyAt [x, VF] r b (s.setRegFlag x w f) ((s.setReg r b).setRegFlag x w f) :=
  (differsOnlyAt_setReg s r x b w).setReg VF f

/-! ## Shared operations that do not meet register r -/

theorem State.skipIf_setReg (c : Bool) : (s.setReg r b).skipIf c = (s.skipIf c).setReg r b := by
  cases c <;> rfl

theorem State.keyTest_setReg (k : Byte) :
    (s.setReg r b).keyTest k = (s.keyTest k).map fun p => (p.1, p.2.setReg r b) := by
  unfold State.keyTest Ports.keyTest
  split
  · rfl
  · cases hp : s.params.keyOorPolicy <;> simp only [statePorts, State.params_setReg, hp] <;> rfl

theorem State.storeRegs_setReg {r : RegIdx} : ∀ {n : Nat}, n ≤ r.val →
    (s.setReg r b).storeRegs n = (s.storeRegs n).setReg r b
  | 0, _ => rfl
  | n + 1, hn => by
    have hne : Fin.ofNat 16 n ≠ r := fun e => by
      have := congrArg Fin.val e
      rw [Fin.val_ofNat, Nat.mod_eq_of_lt (by omega)] at this
      omega
    rw [State.storeRegs_succ, State.storeRegs_setReg (by omega), State.reg_setReg_ne hne, State.storeRegs_succ]
    rfl

end

theorem State.togglePixel_setReg (s : State) {r : RegIdx} (hr : r ≠ VF) (b : Byte) (px py : Nat) :
    (s.setReg r b).togglePixel px py = (s.togglePixel px py).setReg r b := by
  rw [State.togglePixel_eq, State.togglePixel_eq, State.pixelRead_setReg]
  split
  · exact State.setReg_comm (s.pixelWrite px py (!s.pixelRead px py)) hr _ _
  · rfl

theorem State.drawCols_setReg (s : State) {r : RegIdx} (hr : r ≠ VF) (b w : Byte) (vx py : Nat) :
    ∀ n, (s.setReg r b).drawCols w vx py n = (s.drawCols w vx py n).setReg r b
  | 0 => rfl
  | n + 1 => by
    rw [State.drawCols_succ, State.drawCols_succ, s.drawCols_setReg hr]
    split
    · exact State.togglePixel_setReg _ hr _ _ _
    · rfl

theorem State.drawRows_setReg (s : State) {r : RegIdx} (hr : r ≠ VF) (b : Byte) (vx vy : Nat) :
    ∀ n, (s.setReg r b).drawRows vx vy n = (s.drawRows vx vy n).setReg r b
  | 0 => rfl
  | n + 1 => by
    rw [State.drawRows_succ, State.drawRows_succ, s.drawRows_setReg hr, ← State.drawCols_setReg _ hr]
    rfl

/-- States with the same rest and registers that read alike are equal. -/
theorem State.eq_of_reg_eq {s t : State} {v : Vector Byte 16} (ht : t = { s with v := v })
    (h : ∀ r, t.reg r = s.reg r) : t = s := by
  have hv : t.v = s.v := State.v_eq_of_reg h
  rw [ht] at hv ⊢
  rw [show v = s.v from hv]

/-- A block load writes registers from memory, so a register it writes may hold anything before. -/
theorem differsOnlyAt_loadRegs (s : State) (r : RegIdx) (b : Byte) {n : Nat} (hn : n ≤ 16) :
    DiffersOnlyAt ((List.finRange 16).filter (·.val < n)) r b (s.loadRegs n) ((s.setReg r b).loadRegs n) := by
  have hreg q := (s.setReg r b).reg_loadRegs q hn
  obtain ⟨v, hv⟩ := s.loadRegs_eq n
  obtain ⟨v', hv'⟩ := (s.setReg r b).loadRegs_eq n
  constructor
  · intro hr
    have hr : r.val < n := by simpa using hr
    refine State.eq_of_reg_eq (v := v') (by rw [hv, hv']; rfl) fun q => ?_
    rw [hreg, s.reg_loadRegs q hn]
    split
    · rfl
    · exact State.reg_setReg_ne (by rintro rfl; contradiction)
  · intro hr
    have hr : ¬r.val < n := by simpa using hr
    refine State.eq_of_reg_eq (v := v') (by rw [hv, hv']; rfl) fun q => ?_
    rw [hreg, State.reg_setReg, State.reg_setReg, s.reg_loadRegs q hn]
    by_cases hq : q = r
    · subst hq; rw [if_neg hr, if_pos rfl, if_pos rfl]
    · rw [if_neg hq, if_neg hq]; rfl

/-! ## Every instruction -/

/-- SKP and SKNP, whose key test reads no register but the tested one. -/
theorem exec_skp_setReg {s t : State} {x r : RegIdx} (h : exec (.skp x) s = .next t) (hx : x ≠ r) (b : Byte) :
    exec (.skp x) (s.setReg r b) = .next (t.setReg r b) := by
  have h : execSkp x s = .next t := h
  change execSkp x (s.setReg r b) = _
  rw [execSkp_eq] at h ⊢
  rw [State.reg_setReg_ne hx, State.keyTest_setReg]
  cases e : s.keyTest (s.reg x) with
  | none => rw [e] at h; cases h
  | some p => rw [e] at h; cases h; exact congrArg _ (State.skipIf_setReg _ r b _)

theorem exec_sknp_setReg {s t : State} {x r : RegIdx} (h : exec (.sknp x) s = .next t) (hx : x ≠ r) (b : Byte) :
    exec (.sknp x) (s.setReg r b) = .next (t.setReg r b) := by
  have h : execSknp x s = .next t := h
  change execSknp x (s.setReg r b) = _
  rw [execSknp_eq] at h ⊢
  rw [State.reg_setReg_ne hx, State.keyTest_setReg]
  cases e : s.keyTest (s.reg x) with
  | none => rw [e] at h; cases h
  | some p => rw [e] at h; cases h; exact congrArg _ (State.skipIf_setReg _ r b _)

theorem regsWritten_ldVxMem (x : RegIdx) :
    regsWritten (.ldVxMem x) = (List.finRange 16).filter (·.val < x.val + 1) :=
  List.filter_congr fun q _ => by simp only [Fin.le_def, Nat.lt_succ_iff]

/-- An instruction answers alike whatever a register it does not read holds: the values it computes are the same, and its
writes commute with the register's, or replace it. -/
theorem exec_setReg_unread {i : Instr} {s t : State} {r : RegIdx} (h : exec i s = .next t) (hr : r ∉ regsRead i)
    (b : Byte) : ∃ t', exec i (s.setReg r b) = .next t' ∧ DiffersOnlyAt (regsWritten i) r b t t' := by
  have hread : ∀ x ∈ regsRead i, (s.setReg r b).reg x = s.reg x :=
    fun x hx => State.reg_setReg_ne fun e => hr (e ▸ hx)
  cases i
  case ret =>
    cases hstack : s.stack with
    | nil =>
      cases (exec_ret_nil hstack).symm.trans h
      exact ⟨_, exec_ret_nil hstack, differsOnlyAt_setReg_self _ r b⟩
    | cons a rest =>
      cases (exec_ret_cons hstack).symm.trans h
      exact ⟨_, exec_ret_cons hstack, differsOnlyAt_setReg_self _ r b⟩
  case call nnn =>
    rcases execCall_cases nnn s with ⟨-, e⟩ | ⟨hroom, e⟩ <;> cases e.symm.trans h
    exact ⟨_, exec_call_of_room (s := s.setReg r b) hroom nnn, differsOnlyAt_setReg_self _ r b⟩
  case skp x => exact ⟨_, exec_skp_setReg h (by rintro rfl; simp [regsRead] at hr) b, differsOnlyAt_setReg_self _ r b⟩
  case sknp x => exact ⟨_, exec_sknp_setReg h (by rintro rfl; simp [regsRead] at hr) b, differsOnlyAt_setReg_self _ r b⟩
  case drw x y n =>
    cases h
    rw [exec_drw, hread x (by simp [regsRead]), hread y (by simp [regsRead])]
    exact ⟨_, rfl, (differsOnlyAt_setReg s r VF b 0#8).map (State.drawRows · _ _ _)
      fun hn => State.drawRows_setReg _ (List.ne_of_not_mem_cons hn) _ _ _ _⟩
  case ldMemVx x =>
    cases h
    have hrx : x < r := by simpa [regsRead] using hr
    rw [exec_ldMemVx, State.storeRegs_setReg s b (n := x.val + 1) hrx]
    exact ⟨_, rfl, differsOnlyAt_setReg_self _ r b⟩
  case ldVxMem x =>
    cases h
    rw [exec_ldVxMem, regsWritten_ldVxMem]
    exact ⟨_, rfl, (differsOnlyAt_loadRegs s r b (by omega)).map (State.setI · _) fun _ => rfl⟩
  case rnd x nn => cases h; exact ⟨_, rfl, differsOnlyAt_setReg s.afterDraw r x b _⟩
  case seImm | sneImm | seReg | sneReg =>
    cases h
    simp only [regsRead, List.forall_mem_cons] at hread
    simp only [exec_seImm, exec_sneImm, exec_seReg, exec_sneReg, hread, State.skipIf_setReg]
    exact ⟨_, rfl, differsOnlyAt_setReg_self _ r b⟩
  case addReg | subReg | shr | subn | shl =>
    cases h
    simp only [regsRead, List.forall_mem_cons] at hread
    simp only [exec_addReg, exec_subReg, exec_shr, exec_subn, exec_shl, hread]
    exact ⟨_, rfl, differsOnlyAt_setRegFlag s r _ b _ _⟩
  case addImm | ldReg | orReg | andReg | xorReg =>
    cases h
    simp only [regsRead, List.forall_mem_cons] at hread
    simp only [exec_addImm, exec_ldReg, exec_orReg, exec_andReg, exec_xorReg, hread]
    exact ⟨_, rfl, differsOnlyAt_setReg s r _ b _⟩
  case jpV0 | ldDtVx | ldStVx | addI | ldF | ldB =>
    cases h
    simp only [regsRead, List.forall_mem_cons] at hread
    simp only [exec_jpV0, exec_ldDtVx, exec_ldStVx, exec_addI, exec_ldF, exec_ldB, hread]
    exact ⟨_, rfl, differsOnlyAt_setReg_self _ r b⟩
  case ldImm | ldVxDt => cases h; exact ⟨_, rfl, differsOnlyAt_setReg s r _ b _⟩
  case cls | sys | jp | ldI | ldVxK => cases h; exact ⟨_, rfl, differsOnlyAt_setReg_self _ r b⟩

/-- Settles O16: the writes by the frame; the reads by the answer with another value in the register. -/
theorem registersAccessedOnlyAsTabled : Obligations.RegistersAccessedOnlyAsTabled := by
  intro i s t r h
  refine ⟨(exec_frame h).regs r, fun hr b => ?_⟩
  obtain ⟨t', h', hwritten, hkept⟩ := exec_setReg_unread h hr b
  exact ⟨fun hw => h'.trans (by rw [hwritten hw]), fun hw => h'.trans (by rw [hkept hw])⟩

end Sys2Proof.Machine
end

section
/-! PROOFS. The control-transfer family, continued (41_control.md): CALL (R134), the skips on two registers (R137, R138) and
JP V0 (R139). -/

namespace Sys2Proof.Machine

/-- Settles O23: CALL's two outcomes, told apart by the room on the stack. -/
theorem callPushesReturnAddress : Obligations.CallPushesReturnAddress := by
  intro nnn s
  refine ⟨decode_callWord nnn, fun hroom => ?_, fun c hc hle => ?_⟩
  · have e := exec_call_of_room (State.stackFull_eq_false.2 hroom) nnn
    exact ⟨_, e, State.pc_setPc _ nnn, rfl, exec_frame (i := .call nnn) e⟩
  · exact exec_call_of_stackFull (State.stackFull_iff.2 ⟨c, hc, hle⟩) nnn

/-- Settles O25: both are skips, on equal and on unequal registers; the words are told by their low nibble. -/
theorem skipOnRegisterCompare : Obligations.SkipOnRegisterCompare :=
  fun x y s => ⟨decode_word5 x y 0x0#4, decode_word9 x y 0x0#4,
    fun n hn => ⟨(decode_word5 x y n).trans (if_neg hn), (decode_word9 x y n).trans (if_neg hn)⟩,
    ⟨_, exec_seReg s x y, frame_skipIf s _, s.toNat_pc_skipIf_eq (s.reg x) (s.reg y)⟩,
    ⟨_, exec_sneReg s x y, frame_skipIf s _, s.toNat_pc_skipIf_ne (s.reg x) (s.reg y)⟩⟩

theorem toNat_addr_add_setWidth (a : Addr) (w : Byte) : (a + w.setWidth 12).toNat = (a.toNat + w.toNat) % 0x1000 := by
  rw [addr_add_setWidth, BitVec.toNat_ofNat]

/-- Settles O26: JP V0 is the one write of PC, by a 12-bit sum. -/
theorem jpV0AddsRegisterZero : Obligations.JpV0AddsRegisterZero :=
  fun nnn s => ⟨decode_jpV0Word nnn, _, exec_jpV0 s nnn, toNat_addr_add_setWidth nnn (s.reg 0), frame_setPc s _⟩

end Sys2Proof.Machine
end

section
/-! PROOFS. The arithmetic family, continued (42_alu.md): the bitwise operations (R163 to R165), the shifts (R168, R170) and
RND (R171). -/

namespace Sys2Proof.Machine

/-- Settles O30: each is the one write of V[X], so VF is in its frame. -/
theorem logicOpsActBitByBit : Obligations.LogicOpsActBitByBit := by
  intro x y s
  refine ⟨decode_word8 x y 0x1#4, decode_word8 x y 0x2#4, decode_word8 x y 0x3#4,
    ⟨_, exec_orReg s x y, frame_setReg s x _, fun k => ?or⟩, ⟨_, exec_andReg s x y, frame_setReg s x _, fun k => ?and⟩,
    ⟨_, exec_xorReg s x y, frame_setReg s x _, fun k => ?xor⟩⟩
  case or => rw [State.reg_setReg_same, BitVec.getLsbD_or]
  case and => rw [State.reg_setReg_same, BitVec.getLsbD_and]
  case xor => rw [State.reg_setReg_same, BitVec.getLsbD_xor]

theorem toNat_byte_shiftRight_one (a : Byte) : (a >>> 1).toNat = a.toNat / 2 := by
  rw [BitVec.toNat_ushiftRight, Nat.shiftRight_eq_div_pow, Nat.pow_one]

theorem toNat_byte_shiftLeft_one (a : Byte) : (a <<< 1).toNat = a.toNat * 2 % 256 := by
  rw [BitVec.toNat_shiftLeft, Nat.shiftLeft_eq, Nat.pow_one]

/-- Settles O33: the shifted V[Y] goes to V[X] and the lost bit of the old V[Y] to VF, in this order. -/
theorem shiftsTakeVyAndSetLostBitLast : Obligations.ShiftsTakeVyAndSetLostBitLast := by
  intro x y s
  refine ⟨decode_word8 x y 0x6#4, decode_word8 x y 0xE#4, ⟨_, exec_shr s x y, frame_setRegFlag s x _ _, fun hx => ?_, ?_⟩,
    ⟨_, exec_shl s x y, frame_setRegFlag s x _ _, fun hx => ?_, ?_⟩⟩
  · rw [State.reg_setRegFlag_dest s hx, toNat_byte_shiftRight_one]
  · rw [State.reg_setRegFlag_flag, toNat_lowBitFlag]
  · rw [State.reg_setRegFlag_dest s hx, toNat_byte_shiftLeft_one]
  · rw [State.reg_setRegFlag_flag, toNat_highBitFlag]

/-- Settles O34: RND uses up the draw, then writes V[X] by the byte drawn, masked. -/
theorem rndMasksAFreshByte : Obligations.RndMasksAFreshByte := by
  intro x nn s
  refine ⟨decode_rndWord x nn, _, exec_rnd s x nn, exec_frame (i := .rnd x nn) (exec_rnd s x nn), s.draws_afterDraw,
    fun k => ?_⟩
  rw [State.reg_setReg_same, BitVec.getLsbD_and, State.nextByte_eq]

end Sys2Proof.Machine
end

section
/-! PROOFS. The memory laws (20_memory.md R53, R54) and the index and memory family, continued (43_index_memory.md): ADD I
(R202), LD B (R204) and the block store and load (R205, R206). -/

namespace Sys2Proof.Machine

/-! ## Byte writes (R53, R54) -/

section
variable {m : Memory} {a b : Nat}

/-- Canonical memories are equal when they read alike, so a law of reads is a law of memories. -/
theorem Memory.write_write (hm : m.wf = true) (ha : a < 0x1000) (u w : Byte) :
    (m.write a u).write a w = m.write a w := by
  have hu := Memory.wf_write (w := u) ha hm
  refine Memory.eq_of_read_eq (Memory.wf_write ha hu) (Memory.wf_write ha hm) fun c _ => ?_
  rw [Memory.read_write hu, Memory.read_write hm, Memory.read_write hm]
  split_ifs <;> rfl

theorem Memory.write_comm (hm : m.wf = true) (ha : a < 0x1000) (hb : b < 0x1000) (hab : a ≠ b) (u w : Byte) :
    (m.write a u).write b w = (m.write b w).write a u := by
  have hu := Memory.wf_write (w := u) ha hm
  have hw := Memory.wf_write (w := w) hb hm
  refine Memory.eq_of_read_eq (Memory.wf_write hb hu) (Memory.wf_write ha hw) fun c _ => ?_
  rw [Memory.read_write hu, Memory.read_write hm, Memory.read_write hw, Memory.read_write hm]
  split_ifs with hcb hca
  · exact absurd (hca.symm.trans hcb) hab
  all_goals rfl

theorem Memory.write_read (hm : m.wf = true) (ha : a < 0x1000) : m.write a (m.read a) = m := by
  refine Memory.eq_of_read_eq (Memory.wf_write ha hm) hm fun c _ => ?_
  rw [Memory.read_write hm]
  split_ifs with hc
  · rw [hc]
  · rfl

end

/-- Settles O35: the laws of the byte memory, at the state's memory. -/
theorem memoryWritesObeyTheStoreLaws : Obligations.MemoryWritesObeyTheStoreLaws := by
  intro s a b u w hs
  refine ⟨State.memRead_memWrite hs a b w, ?twice, fun hab => ?commute, ?same⟩
  case twice => simp only [State.memWrite_eq, Memory.write_write hs a.isLt]
  case commute =>
    have hab : a.toNat ≠ b.toNat := fun e => hab (BitVec.eq_of_toNat_eq e)
    simp only [State.memWrite_eq, Memory.write_comm hs a.isLt b.isLt hab]
  case same => rw [State.memRead_eq, State.memWrite_eq, Memory.write_read hs a.isLt]

/-! ## ADD I and LD B (R202, R204) -/

/-- Settles O37: ADD I, Vx is the one write of I, by a 12-bit sum; VF is in its frame. -/
theorem addIWrapsWithoutFlag : Obligations.AddIWrapsWithoutFlag :=
  fun x s => ⟨decode_wordF x 0x1E#8, _, exec_addI s x, toNat_addr_add_setWidth s.i (s.reg x), frame_setI s _⟩

/-- What three writes from I up leave in memory: data addresses less than a whole memory apart are distinct. -/
theorem State.memRead_threeWrites {s : State} (hs : s.mem.wf = true) (u v w : Byte) :
    let t := ((s.memWrite (s.dataAddr 0) u).memWrite (s.dataAddr 1) v).memWrite (s.dataAddr 2) w
    t.memRead (s.dataAddr 0) = u ∧ t.memRead (s.dataAddr 1) = v ∧ t.memRead (s.dataAddr 2) = w ∧
    ∀ a, (∀ k, k < 3 → a ≠ s.dataAddr k) → t.memRead a = s.memRead a := by
  intro t
  have h1 := State.wf_memWrite hs (s.dataAddr 0) u
  have h2 := State.wf_memWrite h1 (s.dataAddr 1) v
  have hread a : t.memRead a = if a = s.dataAddr 2 then w else if a = s.dataAddr 1 then v else
      if a = s.dataAddr 0 then u else s.memRead a := by
    rw [State.memRead_memWrite h2, State.memRead_memWrite h1, State.memRead_memWrite hs]
  refine ⟨?_, ?_, ?_, fun a ha => ?_⟩
  · simp [hread, State.dataAddr_inj]
  · simp [hread, State.dataAddr_inj]
  · simp [hread]
  · simp [hread, ha]

/-- Settles O39: the three digits are three writes from I up. -/
theorem ldBStoresDecimalDigits : Obligations.LdBStoresDecimalDigits := by
  intro x s
  refine ⟨decode_wordF x 0x33#8, fun hs => ?_⟩
  obtain ⟨h0, h1, h2, hrest⟩ := State.memRead_threeWrites hs (hundreds (s.reg x)) (tens (s.reg x)) (ones (s.reg x))
  refine ⟨_, exec_ldB s x, ?_, ?_, ?_, hrest, exec_frame (exec_ldB s x)⟩
  · rw [h0, toNat_hundreds]
  · rw [h1, toNat_tens]
  · rw [h2, toNat_ones]

/-! ## Register blocks (R205, R206) -/

theorem regIdx_ofNat (k : RegIdx) : Fin.ofNat 16 (k : Nat) = k := Fin.ext (Nat.mod_eq_of_lt k.isLt)

/-- Of the bytes from I up, the first X + 1 are the ones a block of X + 1 registers meets. -/
theorem State.forall_dataAddr_ne {s : State} {x : RegIdx} {a : Addr} (h : ∀ k : RegIdx, k ≤ x → a ≠ s.dataAddr k)
    (k : Nat) (hk : k < x.val + 1) : a ≠ s.dataAddr k :=
  h ⟨k, by omega⟩ (Fin.le_def.2 (Nat.le_of_lt_succ hk))

theorem State.memRead_storeRegs_reg {s : State} (hs : s.mem.wf = true) {k x : RegIdx} (hk : k ≤ x) :
    (s.storeRegs (x.val + 1)).memRead (s.dataAddr k) = s.reg k := by
  rw [(State.memRead_storeRegs hs x.isLt).1 k (Nat.lt_succ_of_le hk), regIdx_ofNat]

/-- Settles O40: the block store, then the one write of I. -/
theorem ldMemVxStoresRegisters : Obligations.LdMemVxStoresRegisters := by
  intro x s
  refine ⟨decode_wordF x 0x55#8, fun hs => ⟨_, exec_ldMemVx s x, fun k hk => ?_, fun a ha => ?_, ?_,
    exec_frame (exec_ldMemVx s x)⟩⟩
  · rw [State.memRead_setI, State.memRead_storeRegs_reg hs hk]
  · rw [State.memRead_setI, (State.memRead_storeRegs hs x.isLt).2 a (State.forall_dataAddr_ne ha)]
  · rw [State.i_setI, State.toNat_dataAddr, Nat.add_assoc]

/-- Settles O41: the block load, then the one write of I. -/
theorem ldVxMemLoadsRegisters : Obligations.LdVxMemLoadsRegisters := by
  intro x s
  refine ⟨decode_wordF x 0x65#8, _, exec_ldVxMem s x, fun k hk => ?_, ?_, exec_frame (exec_ldVxMem s x)⟩
  · rw [State.reg_setI, State.reg_loadRegs s k x.isLt, if_pos (Nat.lt_succ_of_le hk)]
  · rw [State.i_setI, State.toNat_dataAddr, Nat.add_assoc]

/-- Settles O42: the load reads what the store wrote, from the same base. -/
theorem storeThenLoadRestoresRegisters : Obligations.StoreThenLoadRestoresRegisters := by
  intro x s junk hs
  refine ⟨_, _, exec_ldMemVx s x, exec_ldVxMem _ x, fun k hk => ?_, fun k hk => ?_, rfl, rfl⟩
  · rw [State.reg_setI, State.reg_loadRegs _ k x.isLt, if_pos (Nat.lt_succ_of_le hk)]
    exact State.memRead_storeRegs_reg hs hk
  · rw [State.reg_setI, State.reg_loadRegs _ k x.isLt, if_neg (Nat.not_lt.2 hk)]
    rfl

end Sys2Proof.Machine
end

section
/-! PROOFS. The display family, continued (44_display.md): DRW (R232) and the collision laws (R234). -/

namespace Sys2Proof.Machine

/-- The sprite that DXYN draws in state s has a set bit on the pixel (px, py), coordinates wrapping. -/
def DrwCovers (s : State) (x y : RegIdx) (n : Nibble) (px py : Nat) : Prop :=
  RowCovers (fun row => s.memRead (s.dataAddr row)) (s.reg x).toNat (s.reg y).toNat n.toNat px py

/-- The sprite covers a pixel exactly when it covers the pixel's reduced coordinates (R59). -/
theorem drwCovers_iff_spriteCovers {s : State} {x y : RegIdx} {n : Nibble} {px py : Nat} :
    DrwCovers s x y n px py ↔ SpriteCovers s (s.reg x).toNat (s.reg y).toNat n.toNat (px % 64) (py % 32) := by
  constructor
  · rintro ⟨row, hrow, col, hcol, hbit, hx, hy⟩
    exact ⟨row, col, hrow, hcol, hbit, hx, hy⟩
  · rintro ⟨row, col, hrow, hcol, hbit, hx, hy⟩
    exact ⟨row, hrow, col, hcol, hbit, hx, hy⟩

/-- A covered pixel of the screen, as the spec names it. -/
theorem drwCovers_of_spriteCovers {s : State} {x y : RegIdx} {n : Nibble} {px py : Nat}
    (h : SpriteCovers s (s.reg x).toNat (s.reg y).toNat n.toNat px py) : DrwCovers s x y n px py := by
  obtain ⟨row, col, hrow, hcol, hbit, rfl, rfl⟩ := h
  exact ⟨row, hrow, col, hcol, hbit, Nat.mod_mod _ _, Nat.mod_mod _ _⟩

section
variable {s t : State} {x y : RegIdx} {n : Nibble} {px py : Nat}

theorem exec_drw_covered (h : exec (.drw x y n) s = .next t) (hc : DrwCovers s x y n px py) :
    t.pixelRead px py = !s.pixelRead px py := by
  cases h
  exact ((s.setReg VF 0#8).pixelRead_drawRows _ _ px py (by omega)).1 hc

theorem exec_drw_uncovered (h : exec (.drw x y n) s = .next t) (hc : ¬DrwCovers s x y n px py) :
    t.pixelRead px py = s.pixelRead px py := by
  cases h
  exact ((s.setReg VF 0#8).pixelRead_drawRows _ _ px py (by omega)).2 hc

theorem exec_drw_collision (h : exec (.drw x y n) s = .next t) (hc : DrwCovers s x y n px py)
    (hset : s.pixelRead px py = true) : t.reg VF = 1#8 := by
  cases h
  exact ((s.setReg VF 0#8).flag_drawRows _ _ (by omega)).1 ⟨px, py, hc, hset⟩

theorem exec_drw_no_collision (h : exec (.drw x y n) s = .next t)
    (hc : ∀ px py, DrwCovers s x y n px py → s.pixelRead px py = false) : t.reg VF = 0#8 := by
  cases h
  exact (((s.setReg VF 0#8).flag_drawRows _ _ (by omega)).2 hc).trans (s.reg_setReg_same VF 0#8)

/-- After a draw by registers other than VF, the same DXYN draws the same sprite at the same place. -/
theorem drwCovers_after_drw (h : exec (.drw x y n) s = .next t) (hx : x ≠ VF) (hy : y ≠ VF) :
    DrwCovers t x y n px py ↔ DrwCovers s x y n px py := by
  have hf := exec_frame h
  have hbytes : (fun row => t.memRead (t.dataAddr row)) = fun row => s.memRead (s.dataAddr row) :=
    funext fun row => by
      rw [State.dataAddr_congr (hf.index (by simp [partsWritten])), hf.memory (by simp [partsWritten])]
  rw [DrwCovers, DrwCovers, hbytes, hf.regs x (by simpa [regsWritten] using hx),
    hf.regs y (by simpa [regsWritten] using hy)]

/-- An all-zero sprite covers nothing. -/
theorem not_drwCovers_of_zero (h : ∀ row, row < n.toNat → s.memRead (s.dataAddr row) = 0#8) :
    ¬DrwCovers s x y n px py := by
  rintro ⟨row, hrow, col, -, hbit, -⟩
  simp [h row hrow] at hbit

/-- A row that is not zero has a set bit, which falls on some pixel. -/
theorem exists_drwCovers_of_ne_zero {row : Nat} (hrow : row < n.toNat) (h : s.memRead (s.dataAddr row) ≠ 0#8) :
    ∃ px py, DrwCovers s x y n px py := by
  obtain ⟨k, hk, hbit⟩ : ∃ k, k < 8 ∧ (s.memRead (s.dataAddr row)).getLsbD k = true := by
    by_contra hno
    refine h (BitVec.eq_of_getLsbD_eq fun k hk => ?_)
    rw [BitVec.getLsbD_zero, ← Bool.not_eq_true]
    exact fun hbit => hno ⟨k, hk, hbit⟩
  refine ⟨_, _, row, hrow, 7 - k, by omega, ?_, rfl, rfl⟩
  rwa [show 7 - (7 - k) = k by omega]

end

/-- Settles O45: the four facts of a draw, at the pixels of the screen. -/
theorem drwTogglesCoveredPixels : Obligations.DrwTogglesCoveredPixels := by
  intro x y n s
  have e := exec_drw s x y n
  refine ⟨decode_drwWord x y n, _, e, exec_frame e, fun px py hpx hpy => ⟨fun hc => ?_, fun hc => ?_⟩, ?_, fun hc => ?_⟩
  · exact exec_drw_covered e (drwCovers_of_spriteCovers hc)
  · refine exec_drw_uncovered e fun hc' => hc ?_
    rwa [drwCovers_iff_spriteCovers, Nat.mod_eq_of_lt hpx, Nat.mod_eq_of_lt hpy] at hc'
  · rintro ⟨px, py, hc, hset⟩
    exact exec_drw_collision e (drwCovers_of_spriteCovers hc) hset
  · refine exec_drw_no_collision e fun px py hc' => ?_
    rw [s.pixelRead_congr (Nat.mod_mod px 64).symm (Nat.mod_mod py 32).symm]
    exact hc _ _ (drwCovers_iff_spriteCovers.1 hc')

/-- Settles O46: both draws cover the same pixels, so each is toggled twice or not at all. -/
theorem drawingTwiceRestoresThePixels : Obligations.DrawingTwiceRestoresThePixels := by
  intro x y n s hx hy
  refine ⟨_, _, exec_drw s x y n, exec_drw _ x y n, ?_⟩
  generalize ht : (s.setReg VF 0#8).drawRows (s.reg x).toNat (s.reg y).toNat n.toNat = t
  have e : exec (.drw x y n) s = .next t := ht ▸ exec_drw s x y n
  have e' := exec_drw t x y n
  have hsame {px py : Nat} : DrwCovers t x y n px py ↔ DrwCovers s x y n px py := drwCovers_after_drw e hx hy
  refine ⟨fun px py => ?restored, fun hclear => ⟨?first, fun ⟨row, hrow, hne⟩ => ?second⟩, fun hzero => ⟨?zero, ?zero'⟩⟩
  case restored =>
    by_cases hc : DrwCovers s x y n px py
    · rw [exec_drw_covered e' (hsame.2 hc), exec_drw_covered e hc, Bool.not_not]
    · rw [exec_drw_uncovered e' (mt hsame.1 hc), exec_drw_uncovered e hc]
  case first => exact exec_drw_no_collision e fun px py _ => hclear px py
  case second =>
    obtain ⟨px, py, hc⟩ := exists_drwCovers_of_ne_zero (x := x) (y := y) hrow hne
    exact exec_drw_collision e' (hsame.2 hc) (by rw [exec_drw_covered e hc, hclear, Bool.not_false])
  case zero => exact exec_drw_no_collision e fun px py hc => absurd hc (not_drwCovers_of_zero hzero)
  case zero' => exact exec_drw_no_collision e' fun px py hc => absurd (hsame.1 hc) (not_drwCovers_of_zero hzero)

end Sys2Proof.Machine
end

section
/-! PROOFS. The keypad and timer family, continued (45_keypad_timers.md): SKP and SKNP (R250 to R252). -/

namespace Sys2Proof.Machine

theorem State.keyTest_key {s : State} {b : Byte} {k : KeyIdx} (h : b.toNat = k) :
    s.keyTest b = some (s.keyRead k, s) := by
  rcases s.keyTest_cases b with ⟨hlt, e⟩ | ⟨hgt, -⟩ | ⟨hgt, -⟩ | ⟨hgt, -⟩ | ⟨hgt, -⟩
  · rw [e, show (⟨b.toNat, hlt⟩ : KeyIdx) = k from Fin.ext h]
  all_goals omega

section
variable {s t : State} {x : RegIdx} {c : Bool}

theorem exec_skp_of_keyTest (h : s.keyTest (s.reg x) = some (c, t)) : exec (.skp x) s = .next (t.skipIf c) :=
  (execSkp_eq x s).trans (by rw [h])

theorem exec_sknp_of_keyTest (h : s.keyTest (s.reg x) = some (c, t)) : exec (.sknp x) s = .next (t.skipIf (!c)) :=
  (execSknp_eq x s).trans (by rw [h])

end

/-- A skip's PC when it is taken on a released key. -/
theorem State.toNat_pc_skipIf_not (s : State) (c : Bool) :
    (s.skipIf (!c)).pc.toNat = (s.pc.toNat + if c = true then 0 else 2) % 0x1000 := by
  rw [State.toNat_pc_skipIf]; cases c <;> rfl

/-- Settles O47: a key test of an index 0 to 15 is the key's level, and changes nothing. -/
theorem keySkipsTestTheKeyLevel : Obligations.KeySkipsTestTheKeyLevel :=
  fun x s => ⟨decode_wordE x 0x9E#8, decode_wordE x 0xA1#8, fun _ hk =>
    ⟨⟨_, exec_skp_of_keyTest (State.keyTest_key hk), frame_skipIf s _, s.toNat_pc_skipIf _⟩,
      ⟨_, exec_sknp_of_keyTest (State.keyTest_key hk), frame_skipIf s _, s.toNat_pc_skipIf_not _⟩⟩⟩

theorem frame_afterDraw_skipIf (s : State) (c : Bool) : Frame [.pc, .draws] [] s (s.afterDraw.skipIf c) :=
  ((frame_afterDraw s).mono (by simp) (by simp)).trans ((frame_skipIf _ c).mono (by simp) (by simp))

theorem State.skipIf_eq_ite (s : State) (c : Bool) : s.skipIf c = if c then s.setPc (s.pc + 2#12) else s := by
  cases c <;> rfl

theorem State.skipIf_not_eq_ite (s : State) (c : Bool) : s.skipIf (!c) = if c then s else s.setPc (s.pc + 2#12) := by
  cases c <;> rfl

/-- Settles O48: one key test for each policy. -/
theorem keySkipsOutOfRangeFollowThePolicy : Obligations.KeySkipsOutOfRangeFollowThePolicy := by
  intro x s hx
  refine ⟨fun hp => ?draw, fun hp k hk => ?mask, fun hp => ?notPressed, fun hp => ?fault⟩
  case draw =>
    have e := State.keyTest_draw hx hp
    exact ⟨⟨_, exec_skp_of_keyTest e, frame_afterDraw_skipIf s _, State.draws_skipIf _ _, State.pc_skipIf _ _⟩,
      ⟨_, exec_sknp_of_keyTest e, frame_afterDraw_skipIf s _, State.draws_skipIf _ _, State.pc_skipIf_not _ _⟩⟩
  case mask =>
    have e : s.keyTest (s.reg x) = some (s.keyRead k, s) := by
      rw [State.keyTest_mask hx hp, Fin.eq_mk_iff_val_eq.2 hk.symm]
    exact ⟨(exec_skp_of_keyTest e).trans (by rw [State.skipIf_eq_ite]),
      (exec_sknp_of_keyTest e).trans (by rw [State.skipIf_not_eq_ite])⟩
  case notPressed =>
    have e := State.keyTest_notPressed hx hp
    exact ⟨exec_skp_of_keyTest e, exec_sknp_of_keyTest e⟩
  case fault =>
    have e := State.keyTest_fault hx hp
    exact ⟨exec_skp_of_keyTest_none e, exec_sknp_of_keyTest_none e⟩

end Sys2Proof.Machine
end

section
/-! PROOFS. The reset family, continued (70_reset_and_hazards.md): the key wait's latency (R338), the timer values (R340)
and construction (R330, R331). -/

namespace Sys2Proof.Machine

/-! ## The key wait (R338) -/

/-- Polls with no key pressed change nothing. -/
theorem runOps_polls_without_key {s : State} {x : RegIdx} (hwait : s.keyAwait = some x)
    (hkeys : ∀ j, s.keyRead j = false) (m : Nat) : runOps (List.replicate m .step) s = .next s := by
  have hpoll : applyOp .step s = .next s := by
    rw [applyOp_step, step_waiting hwait, State.keyPoll_of_none_pressed hkeys]
  induction m with
  | zero => rfl
  | succ m ih => rw [List.replicate_succ, runOps_cons_next hpoll, ih]

/-- The poll after one key goes down stores that key and ends the wait. -/
theorem step_of_one_key {s : State} {x : RegIdx} (hwait : s.keyAwait = some x) (hkeys : ∀ j, s.keyRead j = false)
    (k : KeyIdx) :
    step (s.setKey k true) = .next (((s.setKey k true).setReg x (BitVec.ofNat 8 k)).setKeyAwait none) := by
  have hdown : (s.setKey k true).keyRead k = true := by rw [State.keyRead_setKey, if_pos rfl]
  have hlow (j : KeyIdx) (hj : j < k) : (s.setKey k true).keyRead j = false := by
    rw [State.keyRead_setKey, if_neg (ne_of_lt hj), hkeys]
  have hwait' : (s.setKey k true).keyAwait = some x := hwait
  rw [step_waiting hwait', State.keyPoll_of_lowest_pressed hdown hlow]

theorem runOps_append_next {l : List HostOp} {s t : State} (h : runOps l s = .next t) (l' : List HostOp) :
    runOps (l ++ l') s = runOps l' t := by
  rw [runOps_append, h]

theorem State.setKeyAwait_self {s : State} {k : Option RegIdx} (h : s.keyAwait = k) : s.setKeyAwait k = s := by
  subst h; rfl

/-- Settles O52: FX0A's own step, the polls by induction, and the one poll that finds the key. -/
theorem keyWaitEndsOneStepAfterTheKey : Obligations.KeyWaitEndsOneStepAfterTheKey := by
  intro s x m k hk hd hkeys past
  let waiting := past.setKeyAwait (some x)
  have hawait : waiting.keyAwait = some x := State.keyAwait_setKeyAwait past (some x)
  have hfetch : applyOp .step s = .next waiting := step_instruction hk hd
  have hpolls : runOps (List.replicate (m + 1) .step) s = .next waiting := by
    rw [List.replicate_succ, runOps_cons_next hfetch, runOps_polls_without_key hawait hkeys]
  have hend : ((waiting.setKey k true).setReg x (BitVec.ofNat 8 k)).setKeyAwait none =
      (past.setKey k true).setReg x (BitVec.ofNat 8 k) :=
    State.setKeyAwait_self (s := (past.setKey k true).setReg x (BitVec.ofNat 8 k)) hk
  have hpoll : applyOp .step (waiting.setKey k true) = .next ((past.setKey k true).setReg x (BitVec.ofNat 8 k)) :=
    (step_of_one_key hawait hkeys k).trans (congrArg _ hend)
  exact ⟨hpolls, by
    rw [runOps_append_next hpolls, runOps_cons_next (applyOp_setKey waiting k true), runOps_cons_next hpoll, runOps]⟩

/-! ## The timer values (R340) -/

/-- Settles O54: FX15 writes the counter, the ticks count it down, FX07 reads it. -/
theorem delayReadSeesTheTicksBetween : Obligations.DelayReadSeesTheTicksBetween := by
  intro x y n s
  obtain ⟨b, hrun, hdt, -⟩ := countsDown_delay.after_ticks n (s.delayWrite (s.reg x))
  refine ⟨_, b, _, exec_ldDtVx s x, hrun, exec_ldVxDt b y, ?_⟩
  rw [State.reg_setReg_same, hdt, State.dt_delayWrite]

/-! ## Construction (R330, R331) -/

/-- The constructed memory holds the image, below it the font, and MEM_INIT elsewhere. -/
theorem Memory.read_construct (f : Vector Byte 80) (m : Vector Byte 4096) {image : List Byte}
    (hlen : image.length ≤ 0xE00) {a : Nat} (ha : a < 4096) :
    (Memory.construct f m image).read a =
      if 0x200 ≤ a ∧ a < 0x200 + image.length then image.getD (a - 0x200) 0#8
      else if h : a < 80 then f[a] else m[a] := by
  have hinit : (Memory.load [] 0 m.toList).wf = true := Memory.wf_load _ (by simp) Memory.wf_nil
  have hfont : ((Memory.load [] 0 m.toList).load 0 f.toList).wf = true := Memory.wf_load _ (by simp) hinit
  rw [Memory.construct, Memory.read_load _ (by omega) hfont, Memory.read_load _ (by simp) hinit,
    Memory.read_load _ (by simp) Memory.wf_nil]
  split_ifs <;> simp_all

/-- Settles O57: an accepted construction is State.reset with the constructed memory and the parameters. -/
theorem constructionLoadsFontAndImage : Obligations.ConstructionLoadsFontAndImage := by
  intro p f m image
  refine ⟨fun hlong => if_neg (by omega), fun hlen => ?_⟩
  refine ⟨_, State.construct_eq_some.2 ⟨hlen, rfl⟩, fun a => Memory.read_construct f m hlen a.isLt, fun x y => ?_, fun k => ?_,
    rfl, rfl, State.reset.reg_cpuReset, rfl, rfl, rfl, rfl, rfl⟩
  · exact State.reset.pixelRead_screenClear x y
  · simp [State.keyRead_eq, State.reset]

/-- What an unwritten address reads as is the default font, and zero above it. -/
theorem initByte_eq {f : Vector Byte 80} (hf : f.toList = font) (a : Nat) :
    initByte a = if h : a < 80 then f[a] else 0#8 := by
  rw [initByte, ← hf]
  split_ifs with h
  · simp [h]
  · simp [h, memInitByte]

/-- Settles O58: the memory constructed from the defaults reads as the empty one, so it is the empty one. -/
theorem resetIsTheEmptySession : Obligations.ResetIsTheEmptySession := by
  intro f hf
  have hmem : Memory.construct f (Vector.replicate 4096 0#8) [] = [] := by
    refine Memory.eq_of_read_eq (Memory.wf_construct f _ (Nat.zero_le _)) Memory.wf_nil fun a ha => ?_
    rw [Memory.read_construct f _ (Nat.zero_le _) ha, if_neg (by simp), Vector.getElem_replicate, Memory.read,
      initByte_eq hf]
  refine State.construct_eq_some.2 ⟨Nat.zero_le _, ?_⟩
  rw [hmem]
  rfl

end Sys2Proof.Machine
end
